-- ==== Sys2Proof/Word.lean ====
section
/-! DEFINITION. The machine's one data width (spec/00_scope.md R14 `XLEN`, R15). -/

namespace Sys2Proof

/-- A register value, memory cell, opcode byte or operand byte: 8 bits, unsigned (R15). -/
abbrev Byte := BitVec 8

/-- A legal general register index, 0..7 (`NREG` = 8, R14, R21). -/
abbrev RegIdx := Fin 8

end Sys2Proof
end

