-- ==== Sys2Proof/Syntax.lean ====
section
/-! DEFINITION. The instructions: one constructor per row of spec/opcode_table.json (spec/30_encoding.md R87, table T-R87). -/

namespace Sys2Proof

/-- The four instructions of this core. An operand is the whole operand byte, unscaled and unextended (R84);
a register operand is legal when it is at most 7 (R85), which is `wellFormed`'s to say. -/
inductive Instr where
  /-- `HLT` (R120). -/
  | hlt
  /-- `LDI Rd,imm` (R125): operandA names the destination, operandB is the immediate. -/
  | ldi (rd imm : Byte)
  /-- `PRN Rs` (R130): operandA names the source. -/
  | prn (rs : Byte)
  /-- `MUL Rd,Rs` (R137): operandA names destination and first source, operandB the second source. -/
  | mul (rd rs : Byte)
  deriving DecidableEq, Repr

end Sys2Proof
end

