-- ==== Sys2Proof/WellFormed.lean ====
section
/-! DEFINITION. Which instruction terms the encoding admits: every register operand names one of R0..R7
(spec/30_encoding.md R85); an immediate is any byte (R86). -/

namespace Sys2Proof

/-- An operand byte that names a register: 0..7 (R21, R85). -/
def legalRegister (i : Byte) : Bool := decide (i.toNat ≤ 7)

/-- Every register operand of the instruction is legal (R85); the immediate of LDI is not checked (R86). -/
def wellFormed : Instr → Bool
  | .hlt => true
  | .ldi rd _ => legalRegister rd
  | .prn rs => legalRegister rs
  | .mul rd rs => legalRegister rd && legalRegister rs

/-- `wellFormed` as a decidable proposition. -/
abbrev WellFormed (i : Instr) : Prop := wellFormed i = true

end Sys2Proof
end

