-- ==== Sys2Proof/Decode.lean ====
section
/-! DEFINITION. Opcode bytes, instruction lengths, the decoder and the encoder (spec/30_encoding.md). -/

namespace Sys2Proof

/-- Opcode byte of HLT, `00000001` (table T-R87). -/
def opHLT : Byte := 0x01#8
/-- Opcode byte of LDI, `10011001` (table T-R87). -/
def opLDI : Byte := 0x99#8
/-- Opcode byte of PRN, `01000011` (table T-R87). -/
def opPRN : Byte := 0x43#8
/-- Opcode byte of MUL, `10101010` (table T-R87). -/
def opMUL : Byte := 0xAA#8

/-- `operand_count(b) = b >> 6`, bits 7:6 of an opcode byte, for every byte (R81, R82). -/
def operandCount (ir : Byte) : Nat := (ir >>> 6).toNat

/-- `length(b) = (b >> 6) + 1`, total on every byte with values 1..4 (R82). -/
def instrLength (ir : Byte) : Nat := operandCount ir + 1

/-- Why three fetched bytes are no instruction (R92). -/
inductive DecodeError where
  /-- The opcode byte is none of the four of table T-R87 (R88). -/
  | unknownInstruction (b : Byte)
  /-- An operand byte used as a register index is above 7 (R85). -/
  | invalidRegister (i : Byte)
  deriving DecidableEq, Repr

/-- Pseudocode P-R92: exact match of the whole opcode byte (R87), then the register operands in operand order (R157).
An operand byte the instruction does not use is not looked at (R90). -/
def decode (ir a b : Byte) : Except DecodeError Instr :=
  if ir = opHLT then .ok .hlt
  else if ir = opLDI then
    if a.toNat > 7 then .error (.invalidRegister a) else .ok (.ldi a b)
  else if ir = opPRN then
    if a.toNat > 7 then .error (.invalidRegister a) else .ok (.prn a)
  else if ir = opMUL then
    if a.toNat > 7 then .error (.invalidRegister a)
    else if b.toNat > 7 then .error (.invalidRegister b)
    else .ok (.mul a b)
  else .error (.unknownInstruction ir)

/-- The bytes of an instruction in ascending address order, opcode first (R56, R80, tables T-R83a to T-R83c). -/
def encode : Instr → List Byte
  | .hlt => [opHLT]
  | .ldi rd imm => [opLDI, rd, imm]
  | .prn rs => [opPRN, rs]
  | .mul rd rs => [opMUL, rd, rs]

/-- The opcode byte of an instruction (table T-R87). -/
def Instr.opcode : Instr → Byte
  | .hlt => opHLT
  | .ldi _ _ => opLDI
  | .prn _ => opPRN
  | .mul _ _ => opMUL

/-- A register name in assembly, `R` and its decimal index (R93). -/
def regName (i : Byte) : String := "R" ++ toString i.toNat

/-- The assembler form of an instruction (R93). -/
def Instr.asm : Instr → String
  | .hlt => "HLT"
  | .ldi rd imm => "LDI " ++ regName rd ++ "," ++ toString imm.toNat
  | .prn rs => "PRN " ++ regName rs
  | .mul rd rs => "MUL " ++ regName rd ++ "," ++ regName rs

/-- Byte `k` of a number whose byte 0 is its least significant (the numbering of spec/opcode_table.json's bits). -/
def byteOfNat (w k : Nat) : Byte := BitVec.ofNat 8 (w / 256 ^ k)

/-- The three bytes, first address first, of an instruction whose low `nbits` bits are `w` and whose other bits are 0. -/
def tableWordBytes (nbits w : Nat) : List Byte :=
  [byteOfNat (w % 2 ^ nbits) 0, byteOfNat (w % 2 ^ nbits) 1, byteOfNat (w % 2 ^ nbits) 2]

/-- What `decode` reads from an instruction numbered as spec/opcode_table.json numbers it; `none` where it refuses. -/
def decodeTableWord (nbits w : Nat) : Option Instr :=
  match tableWordBytes nbits w with
  | [ir, a, b] => (decode ir a b).toOption
  | _ => none

end Sys2Proof
end

