-- ==== Sys2Proof/Config.lean ====
section
/-! DEFINITION. The parameters of table T-R14 (spec/00_scope.md R14) that are numbers of the machine and not widths of a type.
The spec leaves no value undefined, so there is no opaque constant here. -/

namespace Sys2Proof

/-- `N`, the number of memory cells of a machine built with the default capacity (R14, R50; decision D2).
The capacity itself is carried by each memory (`Machine.Memory.size`), so that every statement holds for every `N` (log 1). -/
def Config.defaultMemSize : Nat := 256

/-- `MAX_OPERANDS`: operand bytes fetched on every step (R14, R102). -/
def Config.maxOperands : Nat := 2

/-- `TICK_HZ`: reference rate of the clock driver, "a policy choice, not a correctness requirement" (R14, R109).
Information only: nothing in the model reads it (log 11). -/
def Config.tickHz : Nat := 1000

end Sys2Proof
end

