-- ==== Sys2Proof/Machine/State.lean ====
section
/-! DEFINITION. The whole state of the machine as plain data (spec/10_state.md R20), its faults and its reset state. -/

namespace Sys2Proof.Machine

/-- The two values of the run state (R27). -/
inductive RunState where
  | running
  | halted
  deriving DecidableEq, Repr

/-- The three faults of the core (R150, R154). The spec describes taking one (R155: `err` and `run` are written, the run is
over), so each is recorded in `State.err` by `raise` in a NEXT state; `step` never answers `Host.Outcome.fault` (log 2). -/
inductive Fault where
  /-- Raised by `fetch` (through `Memory.read`) for an address at or above N, with that address (R152); also what the memory
  answers to a loader's write there (R52). Safe: the machine stops where hardware that wraps would go on (D3, D5). -/
  | outOfBounds (a : Nat)
  /-- Raised by `step` when the opcode byte is none of the four, with that byte (R151). Exact: the source gives it. -/
  | unknownInstruction (b : Byte)
  /-- Raised by `step` (through `decode`) and by the meanings of LDI, PRN and MUL (through `regIndex`) for a register operand
  above 7, with that byte (R153). Safe: the machine stops where hardware that masks the index would go on (D6). -/
  | invalidRegister (i : Byte)
  deriving DecidableEq, Repr

/-- Reasons to give an instruction no meaning. Every instruction has one, so no step answers a refusal. -/
inductive Refusal where
  /-- Raised by an arm of `exec` whose instruction has no meaning yet; no arm does so. Safe. -/
  | notModelled (mnemonic : String)
  deriving DecidableEq, Repr

/-- The memory: its capacity N and the cells that do not hold 0, by strictly rising address (R50, R54; log 1, log 13). -/
structure Memory where
  /-- N, the number of cells; the valid addresses are 0..N-1 (R50). -/
  size : Nat
  /-- Address and byte of every cell that is not 0. -/
  cells : List Host.Cell
  deriving DecidableEq, Repr

/-- What an address that the cell list does not mention reads as: cells are zero-initialised (R54). -/
def Memory.unlisted : Byte := 0#8

/-- The canonical form of a cell list whose addresses start at `lo` and stay below `n`: strictly rising, no cell that
holds what an unlisted address reads as. -/
def cellsWf (n : Nat) : Nat → List Host.Cell → Bool
  | _, [] => true
  | lo, (a, v) :: rest => decide (lo ≤ a) && decide (a < n) && decide (v ≠ Memory.unlisted) && cellsWf n (a + 1) rest

/-- The memory has at least one cell (R14) and its cell list is in canonical form, inside 0..N-1. -/
def Memory.wf (m : Memory) : Bool := decide (1 ≤ m.size) && cellsWf m.size 0 m.cells

/-- A memory of capacity `n` as constructed: "all cells start at zero" (R54). -/
def Memory.ofCapacity (n : Nat) : Memory := ⟨n, []⟩

/-- The complete state (R20). -/
structure State where
  /-- General registers `x[0]`..`x[7]` (R21). -/
  x : Vector Byte 8
  /-- Program counter, a natural number in 0..N (R24, R25). -/
  pc : Nat
  /-- Run state (R27). -/
  run : RunState
  /-- Error record (R28). -/
  err : Option Fault
  /-- The memory the core reads (R33, R50). -/
  mem : Memory
  /-- Output channel, oldest value first (R32). -/
  out : List Byte
  deriving DecidableEq, Repr

/-- The machine right after reset with a memory of the default capacity: table T-R35 (R35, R180). No program is in it
(log 8). -/
def State.reset : State where
  x := Vector.replicate 8 0#8
  pc := 0
  run := .running
  err := none
  mem := Memory.ofCapacity Config.defaultMemSize
  out := []

end Sys2Proof.Machine
end

