-- ==== Sys2Proof/Machine/Ops.lean ====
section
/-! DEFINITION. The named operations over memory, registers, output and control state (table T-R16 of spec/00_scope.md),
and taking a fault. -/

namespace Sys2Proof.Machine

/-- The byte a cell list gives an address. -/
def cellsRead : List Host.Cell → Nat → Byte
  | [], _ => Memory.unlisted
  | (b, v) :: rest, a => if a = b then v else cellsRead rest a

/-- The cell list with the byte `v` at address `a`, in canonical form: writing the unlisted value removes the entry. -/
def cellsWrite : List Host.Cell → Nat → Byte → List Host.Cell
  | [], a, v => if v = Memory.unlisted then [] else [(a, v)]
  | (b, w) :: rest, a, v =>
    if a < b then
      if v = Memory.unlisted then (b, w) :: rest else (a, v) :: (b, w) :: rest
    else if a = b then
      if v = Memory.unlisted then rest else (a, v) :: rest
    else (b, w) :: cellsWrite rest a v

/-- `MemRead(a, 1)` (R51): the cell's value when `a < N`, else the OutOfBounds condition with the address; never wrapped or
clamped (R53). -/
def Memory.read (m : Memory) (a : Nat) : Except Fault Byte :=
  if a < m.size then .ok (cellsRead m.cells a) else .error (.outOfBounds a)

/-- `MemWrite(a, 1, v)` (R52): stores `v mod 256` when `a < N`, else the OutOfBounds condition. No instruction performs it
(R55); the loader does. -/
def Memory.write (m : Memory) (a v : Nat) : Except Fault Memory :=
  if a < m.size then .ok ⟨m.size, cellsWrite m.cells a (BitVec.ofNat 8 v)⟩ else .error (.outOfBounds a)

/-- The loader's writes: the bytes from address `a` on, "incrementing by one" (R184); the first write outside the memory
fails (R52; log 10). -/
def Memory.load (m : Memory) : Nat → List Byte → Except Fault Memory
  | _, [] => .ok m
  | a, v :: rest =>
    match m.write a v.toNat with
    | .error f => .error f
    | .ok m' => m'.load (a + 1) rest

/-- The bytes placed from address `a` on, those at or above N left out: what `State.withFetchWord` needs (log 9). -/
def Memory.place (m : Memory) : Nat → List Byte → Memory
  | _, [] => m
  | a, v :: rest =>
    match m.write a v.toNat with
    | .error _ => m
    | .ok m' => m'.place (a + 1) rest

/-- `x[i]` (R16). -/
def readReg (i : RegIdx) (s : State) : Byte := s.x[i]

/-- `x[i] <- v`: stores `v mod 256`, "mask-on-write to every register" (R16, R22); no other register changes (R21). -/
def writeReg (i : RegIdx) (v : Nat) (s : State) : State := { s with x := s.x.set i (BitVec.ofNat 8 v) }

/-- `Emit(v)`: appends the value to the output channel (R131). -/
def emit (v : Byte) (s : State) : State := { s with out := s.out ++ [v] }

/-- `halt`: `run <- HALTED`, the error record left as it is (R16, R120; log 6). -/
def halt (s : State) : State := { s with run := .halted }

/-- Sub-step 4, `pc <- pc + (IR >> 6) + 1`, a natural-number addition that never wraps (R104, R26). -/
def advance (ir : Byte) (s : State) : State := { s with pc := s.pc + instrLength ir }

/-- Fault entry (R155): the error record takes the fault and the core halts; registers, memory, output and `pc` keep their
values. There is no return from it: no handler exists and HALTED is terminal (R158). -/
def raise (f : Fault) (s : State) : State := { s with err := some f, run := .halted }

end Sys2Proof.Machine
end

