-- ==== Sys2Proof/Machine/Operands.lean ====
section
/-! DEFINITION. The operand forms (spec/30_encoding.md R84 to R86). There are two: a register operand, checked here, and
LDI's immediate, which is the operand byte as read and needs no operation. -/

namespace Sys2Proof.Machine

/-- The register an operand byte names, or the fault `InvalidRegister` with that byte when it is above 7: the index is
neither masked nor reduced modulo 8 (R85, R153). -/
def regIndex (i : Byte) : Except Fault RegIdx :=
  if h : i.toNat < 8 then .ok ⟨i.toNat, h⟩ else .error (.invalidRegister i)

end Sys2Proof.Machine
end

