-- ==== Sys2Proof/Machine/Alu.lean ====
section
/-! DEFINITION. The ALU and the instruction dispatched to it, MUL (spec/44_mul_alu.md). -/

namespace Sys2Proof.Machine

/-- The operation tags the ALU accepts: {MUL} (R135, `ALU_OPS` of R14; the others have no behaviour, R139). -/
inductive AluOp where
  | mul
  deriving DecidableEq, Repr

/-- `ALU(tag, a, b)`, a pure function of its three arguments (R135); `ALU(MUL, a, b) = (a * b) mod 256`, the product of the
two values as natural numbers (R136). -/
def alu : AluOp → Byte → Byte → Byte
  | .mul, a, b => BitVec.ofNat 8 ((a.toNat * b.toNat) % 256)

/-- MUL Rd,Rs (R137): operandA is checked before operandB; both registers are read before the write; the control unit writes
the ALU's result back (R108). -/
def execMul (rd rs : Byte) (s : State) : Host.Outcome State Fault Refusal :=
  match regIndex rd with
  | .error f => .next (raise f s)
  | .ok d =>
    match regIndex rs with
    | .error f => .next (raise f s)
    | .ok e => .next (advance opMUL (writeReg d (alu .mul (readReg d s) (readReg e s)).toNat s))

end Sys2Proof.Machine
end

