-- ==== Sys2Proof/Machine/LoadImmediate.lean ====
section
/-! DEFINITION. LDI (spec/42_ldi.md). -/

namespace Sys2Proof.Machine

/-- LDI Rd,imm (R125): the register takes the immediate as it is. -/
def execLdi (rd imm : Byte) (s : State) : Host.Outcome State Fault Refusal :=
  match regIndex rd with
  | .error f => .next (raise f s)
  | .ok d => .next (advance opLDI (writeReg d imm.toNat s))

end Sys2Proof.Machine
end

