-- ==== Sys2Proof/Machine/Output.lean ====
section
/-! DEFINITION. PRN and what the output sink shows (spec/43_prn.md). -/

namespace Sys2Proof.Machine

/-- PRN Rs (R130): the register's value is appended to the output channel; the register keeps it. -/
def execPrn (rs : Byte) (s : State) : Host.Outcome State Fault Refusal :=
  match regIndex rs with
  | .error f => .next (raise f s)
  | .ok r => .next (advance opPRN (emit (readReg r s) s))

/-- The decimal numeral, without sign or leading zeros, by which the sink shows one emitted value (R132); what separates two
of them is not given (log 15). -/
def sinkNumeral (v : Byte) : List Char := Nat.toDigits 10 v.toNat

end Sys2Proof.Machine
end

