-- ==== Sys2Proof/Machine/System.lean ====
section
/-! DEFINITION. HLT (spec/41_hlt.md). -/

namespace Sys2Proof.Machine

/-- HLT (R120): the core halts with no error, and its own step still advances `pc` by 1 (R104, conflict C1). -/
def execHlt (s : State) : Host.Outcome State Fault Refusal := .next (advance opHLT (halt s))

end Sys2Proof.Machine
end

