-- ==== Sys2Proof/Machine/Dispatch.lean ====
section
/-! DEFINITION. Sub-steps 3 and 4 of a step for each decoded instruction (spec/40_cycle.md R103, R104). -/

namespace Sys2Proof.Machine

-- The effect of one instruction; `step` looks at the run state before it comes here (R100; log 4).
def exec (i : Instr) (s : State) : Host.Outcome State Fault Refusal :=
  match i with
  | .hlt => Sys2Proof.Machine.execHlt s
  | .ldi rd imm => Sys2Proof.Machine.execLdi rd imm s
  | .prn rs => Sys2Proof.Machine.execPrn rs s
  | .mul rd rs => Sys2Proof.Machine.execMul rd rs s

end Sys2Proof.Machine
end

