-- ==== Sys2Proof/Machine/Fetch.lean ====
section
/-! DEFINITION. Sub-steps 1 and 2: the three reads of a step (spec/40_cycle.md R101, R102; spec/20_memory.md R67). -/

namespace Sys2Proof.Machine

/-- The three values a step forms; they live inside the step only (R29). -/
structure Fetched where
  /-- `IR`, the byte at `pc` (R101). -/
  ir : Byte
  /-- `operandA`, the byte at `pc + 1` (R102). -/
  operandA : Byte
  /-- `operandB`, the byte at `pc + 2` (R102). -/
  operandB : Byte
  deriving DecidableEq, Repr

/-- Reads `pc`, `pc + 1`, `pc + 2` in that order, whatever the opcode; the first failing read ends the fetch
(R101, R102, R61). -/
def fetch (s : State) : Except Fault Fetched :=
  match s.mem.read s.pc with
  | .error f => .error f
  | .ok ir =>
    match s.mem.read (s.pc + 1) with
    | .error f => .error f
    | .ok a =>
      match s.mem.read (s.pc + 2) with
      | .error f => .error f
      | .ok b => .ok ⟨ir, a, b⟩

/-- The addresses a sequence of reads presents to the memory port: a failing read is the last one (R67). -/
def presented (m : Memory) : List Nat → List Nat
  | [] => []
  | a :: rest =>
    match m.read a with
    | .error _ => [a]
    | .ok _ => a :: presented m rest

/-- The addresses the next step presents to the memory port, in order; none in HALTED (R67, R100). -/
def fetchAddresses (s : State) : List Nat :=
  match s.run with
  | .halted => []
  | .running => presented s.mem [s.pc, s.pc + 1, s.pc + 2]

/-- The fault a decoder's rejection raises (R103, R151, R153). -/
def decodeFault : DecodeError → Fault
  | .unknownInstruction b => .unknownInstruction b
  | .invalidRegister i => .invalidRegister i

end Sys2Proof.Machine
end

