-- ==== Sys2Proof/Machine/Step.lean ====
section
/-! DEFINITION. `tick`, the one step of the machine (spec/40_cycle.md R100 to R105), and where it fetches. -/

namespace Sys2Proof.Machine

/-- Pseudocode P-R105: in HALTED nothing happens (R100); otherwise the three reads (R101, R102), the decoder and the
instruction's own effect with its advance (R103, R104); a fault on the way is taken by `raise` (R155). -/
def step (s : State) : Host.Outcome State Fault Refusal :=
  match s.run with
  | .halted => .next s
  | .running =>
    match fetch s with
    | .error f => .next (raise f s)
    | .ok w =>
      match decode w.ir w.operandA w.operandB with
      | .error e => .next (raise (decodeFault e) s)
      | .ok i => exec i s

/-- The state with an instruction's three bytes (those above `nbits` zero) where the next step fetches: at `pc`, `pc + 1`,
`pc + 2`. Only memory changes (log 9). -/
def State.withFetchWord (s : State) (nbits w : Nat) : State :=
  { s with mem := s.mem.place s.pc (tableWordBytes nbits w) }

end Sys2Proof.Machine
end

