-- ==== Sys2Proof/Machine/Boot.lean ====
section
/-! DEFINITION. The `reset` input and the launch of a run (spec/70_reset_and_hazards.md section 1 and 2). -/

namespace Sys2Proof.Machine

/-- The `reset` input (R181): the core's own state as at startup, from any state; the memory is not touched (R182) and the
output of the new run starts empty (R182, D19; log 7). -/
def resetInput (s : State) : State :=
  { x := Vector.replicate 8 0#8, pc := 0, run := .running, err := none, mem := s.mem, out := [] }

/-- The launch state of a run (R110, R183): a memory of capacity `n`, the core in its reset state, and the program's bytes
written from address 0 (R184). A program that does not fit makes the loader's write fail (log 10).
`n = 0`: the spec admits only N >= 1 (R14, D23) and says nothing of a memory without cells. DESIGN CHOICE: the launch treats 0
like any other capacity, so only the empty program launches, and the first step faults with `OutOfBounds(0)`; such a state has
neither `Memory.wf` nor `Inv` (log 18). -/
def State.launch (n : Nat) (program : List Byte) : Except Fault State :=
  match (Memory.ofCapacity n).load 0 program with
  | .error f => .error f
  | .ok m => .ok { State.reset with mem := m }

end Sys2Proof.Machine
end

