-- ==== Sys2Proof/Machine/Driver.lean ====
section
/-! DEFINITION. The clock driver's contract without its timer (spec/40_cycle.md R109). -/

namespace Sys2Proof.Machine

/-- At most `k` intervals of the clock driver: "while state is RUNNING, invoke `tick` once per fixed interval"; "stop
invoking once state is HALTED" (R109). It sees only `run`. -/
def driver : Nat → State → Host.Outcome State Fault Refusal
  | 0, s => .next s
  | k + 1, s =>
    match s.run with
    | .halted => .next s
    | .running =>
      match step s with
      | .next t => driver k t
      | .fault f => .fault f
      | .refused r => .refused r

end Sys2Proof.Machine
end

