-- ==== Sys2Proof/Safety.lean ====
section
/-! DEFINITION. The two ends of a run and the invariant of the machine, in the terms the statements use. -/

namespace Sys2Proof.Machine

/-- `run = HALTED` and `err = none`, "the only good end of a run" (R162, R191). -/
abbrev CleanHalt (s : State) : Prop := s.run = .halted ∧ s.err = none

/-- `run = HALTED` with `err` set (R162). -/
abbrev FaultedHalt (s : State) : Prop := s.run = .halted ∧ s.err ≠ none

/-- A byte of table T-R87's opcode column (R87). -/
abbrev IsOpcode (b : Byte) : Prop := b = 0x01#8 ∨ b = 0x99#8 ∨ b = 0x43#8 ∨ b = 0xAA#8

/-- A recorded fault is what stands in memory at `pc`, which fault entry leaves on the faulting opcode (R28, R151 to R153,
R155): an opcode byte outside the table; an address that is exactly N, met by one of the three reads; an operand byte above 7
that the opcode at `pc` uses as a register index. -/
def FaultExplained (f : Fault) (s : State) : Prop :=
  match f with
  | .outOfBounds a => a = s.mem.size ∧ s.mem.size ≤ s.pc + 2
  | .unknownInstruction b => s.pc + 2 < s.mem.size ∧ s.mem.read s.pc = .ok b ∧ ¬ IsOpcode b
  | .invalidRegister i =>
      s.pc + 2 < s.mem.size ∧ 7 < i.toNat ∧
        ((∃ ir, s.mem.read s.pc = .ok ir ∧ (ir = 0x99#8 ∨ ir = 0x43#8 ∨ ir = 0xAA#8) ∧ s.mem.read (s.pc + 1) = .ok i) ∨
          (s.mem.read s.pc = .ok 0xAA#8 ∧ (∃ a, s.mem.read (s.pc + 1) = .ok a ∧ a.toNat ≤ 7) ∧
            s.mem.read (s.pc + 2) = .ok i))

/-- What every state of a run from launch satisfies: the memory is canonical with N >= 1 (R14); `pc <= N` (R26); a running
core has recorded no error (R28); a clean halt stands just past an HLT byte that lies at or before N-3 (R120, R191); a
recorded fault goes with HALTED and is explained by the memory (R155). -/
structure Inv (s : State) : Prop where
  memWf : s.mem.wf = true
  pcInRange : s.pc ≤ s.mem.size
  runningNoErr : s.run = .running → s.err = none
  cleanHaltPastHlt : CleanHalt s → 1 ≤ s.pc ∧ s.pc + 1 < s.mem.size ∧ s.mem.read (s.pc - 1) = .ok 0x01#8
  faultHalts : ∀ f, s.err = some f → s.run = .halted ∧ FaultExplained f s

end Sys2Proof.Machine
end

