-- ==== Sys2Proof/Certificates/Slice0/Obligations.lean ====
section
/-! DEFINITION. The statements for the provers. Where a docstring says "the spec's decision D<n>", the clause is the spec's own
choice where its source is silent (spec/92_eei_decisions.md), not a statement of the source (log 17). -/

open Sys2Proof Sys2Proof.Machine

/-! ### Encoding -/

/-- Words written out from tables T-R87 and T-R83a to T-R83c, and the decoder's rejections of vector group V-DEC; the order of
the two register checks of MUL is the spec's decision D10, the register rejection its decision D6. -/
def Obligations.DecodesTheWordsOfTheTable : Prop :=
  decode 0b00000001#8 0xFF#8 0xFF#8 = .ok .hlt ∧
  decode 0b10011001#8 0x07#8 0xFF#8 = .ok (.ldi 7#8 255#8) ∧
  decode 0b01000011#8 0x05#8 0xC7#8 = .ok (.prn 5#8) ∧
  decode 0b10101010#8 0x00#8 0x01#8 = .ok (.mul 0#8 1#8) ∧
  decode 0x99#8 0x08#8 0x01#8 = .error (.invalidRegister 8#8) ∧
  decode 0xAA#8 0x09#8 0x0A#8 = .error (.invalidRegister 9#8) ∧
  decode 0xAA#8 0x00#8 0x09#8 = .error (.invalidRegister 9#8) ∧
  decode 0xC5#8 0x01#8 0x02#8 = .error (.unknownInstruction 0xC5#8)

/-- Decoding the bytes of a well-formed instruction, whatever candidate bytes follow them, gives it back (R83, R84, R90). -/
def Obligations.DecodeOfEncodeIsTheInstruction : Prop :=
  ∀ (i : Instr) (ir a b : Byte), WellFormed i → encode i <+: [ir, a, b] → decode ir a b = .ok i

/-- Three fetched bytes that decode begin with the encoding of the instruction they decode to, which is well formed: no word
has two meanings and no illegal register operand is decoded (R85, R87, R91). -/
def Obligations.DecodedBytesBeginWithTheEncoding : Prop :=
  ∀ (ir a b : Byte) (i : Instr), decode ir a b = .ok i → WellFormed i ∧ encode i <+: [ir, a, b]

/-- R82: `operand_count(b) = b >> 6` and `length(b) = (b >> 6) + 1` on all 256 bytes with values 1..4; the values of the four
opcodes; the length of what decodes is the length of its encoding, and 4 belongs to no instruction. -/
def Obligations.LengthIsOperandCountPlusOne : Prop :=
  (∀ b : Byte, operandCount b = b.toNat / 64 ∧ instrLength b = b.toNat / 64 + 1 ∧ 1 ≤ instrLength b ∧ instrLength b ≤ 4 ∧
    (instrLength b = 4 ↔ 0xC0 ≤ b.toNat)) ∧
  (instrLength 0x01#8 = 1 ∧ instrLength 0x43#8 = 2 ∧ instrLength 0x99#8 = 3 ∧ instrLength 0xAA#8 = 3) ∧
  (∀ (ir a b : Byte) (i : Instr), decode ir a b = .ok i → instrLength ir = (encode i).length ∧ instrLength ir ≠ 4)

/-! ### Memory and registers -/

/-- A read inside 0..N-1 returns the stored byte, one at or above N fails with the address (20_memory.md, read contract). The
second clause, that an address below N with no listed cell reads 0, is the model's: DEDUCED from the construction of the memory
with all cells 0 (log 13). -/
def Obligations.MemoryReadGivesTheCellOrOutOfBounds : Prop :=
  ∀ (m : Memory) (a : Nat), m.wf = true →
    (∀ v : Byte, (a, v) ∈ m.cells → m.read a = .ok v) ∧
    (a < m.size → (∀ v : Byte, (a, v) ∉ m.cells) → m.read a = .ok 0#8) ∧
    (m.size ≤ a → m.read a = .error (.outOfBounds a))

/-- R52: a write inside 0..N-1 stores the value modulo 256 at that address and at no other, one at or above N fails with the
address, and no step of the core writes. -/
def Obligations.MemoryWriteMasksAndTouchesOneCell : Prop :=
  (∀ (m : Memory) (a v : Nat), m.wf = true → a < m.size →
    ∃ m', m.write a v = .ok m' ∧ m'.size = m.size ∧
      (∃ w : Byte, m'.read a = .ok w ∧ w.toNat = v % 256) ∧ ∀ b, b ≠ a → m'.read b = m.read b) ∧
  (∀ (m : Memory) (a v : Nat), m.size ≤ a → m.write a v = .error (.outOfBounds a)) ∧
  (∀ s t : State, step s = .next t → t.mem = s.mem)

/-- R21, R22: every register holds a value in 0..255; a write stores the value modulo 256, so a value in 0..255 as it is; no
other register and nothing else of the state changes; no register is hard-wired. -/
def Obligations.RegisterWriteMasksAndTouchesOneRegister : Prop :=
  ∀ (s : State) (r : RegIdx) (v : Nat),
    (readReg r s).toNat < 256 ∧
    (readReg r (writeReg r v s)).toNat = v % 256 ∧
    (v < 256 → (readReg r (writeReg r v s)).toNat = v) ∧
    (∀ q, q ≠ r → readReg q (writeReg r v s) = readReg q s) ∧
    { writeReg r v s with x := s.x } = s

/-! ### Reset and launch -/

/-- R180: `run = RUNNING`, `pc = 0`, `x[0..7] = 0`, `err = none`. -/
def Obligations.ResetStateOfTheCore : Prop :=
  State.reset.run = .running ∧ State.reset.pc = 0 ∧ (∀ r : RegIdx, readReg r State.reset = 0#8) ∧ State.reset.err = none

/-- Table T-R35 for what the core does not own: 256 cells, all 0, and an empty output channel (the latter is the spec's
decision D19, the default N its decision D2; log 1). -/
def Obligations.ResetMemoryIsZeroAndOutputEmpty : Prop :=
  State.reset.out = [] ∧ State.reset.mem.size = 256 ∧ ∀ a, a < 256 → State.reset.mem.read a = .ok 0#8

/-- The `reset` input, from any state: the core's reset state, the memory untouched, the output of the new run empty (the
spec's decisions D12 and D19; log 7). -/
def Obligations.ResetInputRestoresTheCore : Prop :=
  ∀ s : State, (resetInput s).run = .running ∧ (resetInput s).pc = 0 ∧ (∀ r : RegIdx, readReg r (resetInput s) = 0#8) ∧
    (resetInput s).err = none ∧ (resetInput s).mem = s.mem ∧ (resetInput s).out = []

/-- A launch succeeds exactly when the program fits; its bytes stand from address 0 on, every other cell is 0, and the core is
in its reset state. That a longer program stops the launch is the model's choice (log 10), and so is that capacity 0, which
the spec does not admit, is no special case (log 18). -/
def Obligations.LaunchPlacesTheProgram : Prop :=
  ∀ (n : Nat) (program : List Byte),
    (program.length ≤ n ↔ ∃ s, State.launch n program = .ok s) ∧
    ∀ s, State.launch n program = .ok s →
      s.mem.size = n ∧ s = { State.reset with mem := s.mem } ∧
      (∀ k, ∀ h : k < program.length, s.mem.read k = .ok program[k]) ∧
      (∀ a, program.length ≤ a → a < n → s.mem.read a = .ok 0#8)

/-! ### The invariant -/

/-- The state after reset satisfies the invariant. -/
def Obligations.InvariantHoldsAtReset : Prop := Inv State.reset

/-- Every launch state with N >= 1 satisfies the invariant; and so does the state a `reset` input leaves, PROVIDED the memory,
which that input does not touch, is canonical. The `reset` input is the spec's decision D12 (with D19 for the empty output), and
the model's reading of it is DEDUCED (log 7). -/
def Obligations.InvariantHoldsAtLaunch : Prop :=
  (∀ (n : Nat) (program : List Byte) (s : State), 1 ≤ n → State.launch n program = .ok s → Inv s) ∧
  (∀ s : State, s.mem.wf = true → Inv (resetInput s))

/-- Every step keeps the invariant: canonical memory, `pc <= N`, no error while RUNNING, a clean halt just past an HLT byte at
or before N-3, and a recorded fault that the memory at `pc` explains. -/
def Obligations.StepKeepsTheInvariant : Prop :=
  ∀ s t : State, Inv s → step s = .next t → Inv t

/-! ### The step -/

/-- While RUNNING, with all three bytes readable, a step is `exec` of the instruction they decode to, and takes the decoder's
fault where they decode to none (40_cycle.md, decode and execute). That a register operand above 7 is a fault is the spec's
decision D6, and that `pc` stays in both fault clauses its decision D7 (log 17). -/
def Obligations.StepRunsTheDecodedInstruction : Prop :=
  ∀ (s : State) (ir a b : Byte), s.run = .running →
    s.mem.read s.pc = .ok ir → s.mem.read (s.pc + 1) = .ok a → s.mem.read (s.pc + 2) = .ok b →
    (∀ i, decode ir a b = .ok i → step s = exec i s) ∧
    (∀ v, decode ir a b = .error (.unknownInstruction v) →
      step s = .next { s with err := some (.unknownInstruction v), run := .halted }) ∧
    (∀ v, decode ir a b = .error (.invalidRegister v) →
      step s = .next { s with err := some (.invalidRegister v), run := .halted })

/-- R105: `step` is pseudocode P-R105 line by line. -/
def Obligations.StepIsTheTickPseudocode : Prop :=
  ∀ s : State, step s = .next (
    match s.run with
    | .halted => s
    | .running =>
      match s.mem.read s.pc with
      | .error f => { s with err := some f, run := .halted }
      | .ok ir =>
        match s.mem.read (s.pc + 1) with
        | .error f => { s with err := some f, run := .halted }
        | .ok a =>
          match s.mem.read (s.pc + 2) with
          | .error f => { s with err := some f, run := .halted }
          | .ok b =>
            if ir = 0x01#8 then { s with run := .halted, pc := s.pc + (ir >>> 6).toNat + 1 }
            else if ir = 0x99#8 then
              if ha : a.toNat < 8 then
                { s with x := s.x.set a.toNat b ha, pc := s.pc + (ir >>> 6).toNat + 1 }
              else { s with err := some (.invalidRegister a), run := .halted }
            else if ir = 0x43#8 then
              if ha : a.toNat < 8 then
                { s with out := s.out ++ [s.x[a.toNat]'ha], pc := s.pc + (ir >>> 6).toNat + 1 }
              else { s with err := some (.invalidRegister a), run := .halted }
            else if ir = 0xAA#8 then
              if ha : a.toNat < 8 then
                if hb : b.toNat < 8 then
                  { s with x := s.x.set a.toNat (alu .mul (s.x[a.toNat]'ha) (s.x[b.toNat]'hb)) ha,
                           pc := s.pc + (ir >>> 6).toNat + 1 }
                else { s with err := some (.invalidRegister b), run := .halted }
              else { s with err := some (.invalidRegister a), run := .halted }
            else { s with err := some (.unknownInstruction ir), run := .halted })

/-- R100: in HALTED, reached by HLT or by a fault, any number of `tick`s changes nothing at all, and none reads the memory. -/
def Obligations.HaltedTicksChangeNothing : Prop :=
  ∀ (s : State) (k : Nat), s.run = .halted →
    step s = .next s ∧ fetchAddresses s = [] ∧ Sys2Proof.core.run k s = .next s

/-- R17: every state has an outcome, of one of three kinds: no change in HALTED; an instruction executed, no fault recorded
and `pc` moved on; a fault recorded and the core halted. No step answers the host's fault or refusal. -/
def Obligations.StepHasThreeKindsOfOutcome : Prop :=
  ∀ s : State, ∃ t, step s = .next t ∧
    ((s.run = .halted ∧ t = s) ∨
      (s.run = .running ∧ t.err = s.err ∧ s.pc < t.pc) ∨
      (s.run = .running ∧ FaultedHalt t))

/-- A step that executes an instruction adds `(IR >> 6) + 1` to `pc`, 1 for HLT, 2 for PRN, 3 for LDI and MUL, with no wrap; a
`tick` in HALTED leaves it (40_cycle.md, advance). That a step that faults leaves it too, the last clause, is the spec's decision
D7 (log 17). -/
def Obligations.PcAdvancesByTheLengthOrStays : Prop :=
  ∀ s t : State, step s = .next t →
    (s.run = .halted → t.pc = s.pc) ∧
    (s.run = .running → ∀ ir a b : Byte, s.mem.read s.pc = .ok ir → s.mem.read (s.pc + 1) = .ok a →
      s.mem.read (s.pc + 2) = .ok b → ∀ i, decode ir a b = .ok i →
      t.pc = s.pc + (ir >>> 6).toNat + 1 ∧
      (match i with
        | .hlt => t.pc = s.pc + 1
        | .prn _ => t.pc = s.pc + 2
        | .ldi _ _ => t.pc = s.pc + 3
        | .mul _ _ => t.pc = s.pc + 3)) ∧
    (s.run = .running → s.err = none → t.err ≠ none → t.pc = s.pc)

/-- R55, the frame of HLT, LDI, PRN and MUL: LDI and MUL write their destination register, PRN the output, HLT the run state;
every other register, the error record and every byte of memory are unchanged; and so no run writes memory. -/
def Obligations.EffectsAreConfined : Prop :=
  (∀ (i : Instr) (s t : State), exec i s = .next t → t.mem.size = s.mem.size ∧ ∀ a, t.mem.read a = s.mem.read a) ∧
  (∀ (i : Instr) (s t : State), WellFormed i → exec i s = .next t → t.err = s.err ∧
    (match i with
      | .hlt => t.x = s.x ∧ t.out = s.out ∧ t.run = .halted
      | .ldi rd _ => (∀ r : RegIdx, r.val ≠ rd.toNat → readReg r t = readReg r s) ∧ t.out = s.out ∧ t.run = s.run
      | .prn _ => t.x = s.x ∧ t.run = s.run ∧ ∃ v, t.out = s.out ++ [v]
      | .mul rd _ => (∀ r : RegIdx, r.val ≠ rd.toNat → readReg r t = readReg r s) ∧ t.out = s.out ∧ t.run = s.run)) ∧
  (∀ (k : Nat) (s t : State), Sys2Proof.core.run k s = .next t → t.mem = s.mem)

/-! ### The instructions -/

/-- HLT completes in every state: `run <- HALTED`, `pc <- pc + 1`, nothing else (template of HLT, pseudocode). -/
def Obligations.HltCompletes : Prop :=
  ∀ s : State, exec .hlt s = .next { s with run := .halted, pc := s.pc + 1 }

/-- A step at an HLT byte, whatever the two bytes after it: with both inside the memory the core halts cleanly with `pc` one
further, and no later `tick` changes anything (41_hlt.md, the template of HLT). That at N-1 and N-2 the operand read faults instead
is the spec's decision D5, and that `pc` and all else then stay its decision D7 (log 17). -/
def Obligations.HltHaltsCleanlyAndForGood : Prop :=
  encode .hlt = [0x01#8] ∧
  ∀ s : State, s.run = .running → s.err = none → s.mem.read s.pc = .ok 0x01#8 →
    (s.pc + 2 < s.mem.size → ∃ t, step s = .next t ∧ t = { s with run := .halted, pc := s.pc + 1 } ∧ CleanHalt t ∧
      ∀ k, Sys2Proof.core.run k t = .next t) ∧
    (s.pc + 1 = s.mem.size → step s = .next { s with err := some (.outOfBounds (s.pc + 1)), run := .halted }) ∧
    (s.pc + 2 = s.mem.size → step s = .next { s with err := some (.outOfBounds (s.pc + 2)), run := .halted })

/-- LDI completes for every legal destination and every immediate: `x[d] <- imm`, `pc <- pc + 3`, nothing else (template of
LDI, pseudocode). -/
def Obligations.LdiCompletes : Prop :=
  ∀ (s : State) (rd imm : Byte) (hd : rd.toNat < 8),
    exec (.ldi rd imm) s = .next { s with x := s.x.set rd.toNat imm hd, pc := s.pc + 3 }

/-- R86: a step at an LDI writes the byte at `pc + 2`, any of 0..255, to the register as it is. -/
def Obligations.LdiStoresTheImmediateAsItIs : Prop :=
  ∀ (s : State) (rd imm : Byte) (hd : rd.toNat < 8), s.run = .running →
    s.mem.read s.pc = .ok 0x99#8 → s.mem.read (s.pc + 1) = .ok rd → s.mem.read (s.pc + 2) = .ok imm →
    step s = .next { s with x := s.x.set rd.toNat imm hd, pc := s.pc + 3 }

/-- PRN completes for every legal source: the register's value is appended to the output, `pc <- pc + 2`, nothing else
(template of PRN, pseudocode). -/
def Obligations.PrnCompletes : Prop :=
  ∀ (s : State) (rs : Byte) (hs : rs.toNat < 8),
    exec (.prn rs) s = .next { s with out := s.out ++ [s.x[rs.toNat]'hs], pc := s.pc + 2 }

/-- R131: `Emit(v)` appends v at the end of the output and does nothing else; a step that executes a PRN appends exactly the
value of its register and never blocks or faults for it; no other step changes the output, a faulting one and one in HALTED included. -/
def Obligations.OnlyPrnWritesTheOutput : Prop :=
  (∀ (s : State) (v : Byte), (emit v s).out = s.out ++ [v] ∧ { emit v s with out := s.out } = s) ∧
  (∀ (s : State) (rs b : Byte) (hs : rs.toNat < 8), s.run = .running →
    s.mem.read s.pc = .ok 0x43#8 → s.mem.read (s.pc + 1) = .ok rs → s.mem.read (s.pc + 2) = .ok b →
    ∃ t, step s = .next t ∧ t.out = s.out ++ [s.x[rs.toNat]'hs] ∧ t.err = s.err ∧ t.run = .running) ∧
  (∀ s t : State,
    ¬ (s.run = .running ∧ s.mem.read s.pc = .ok 0x43#8 ∧ (∃ rs, s.mem.read (s.pc + 1) = .ok rs ∧ rs.toNat < 8) ∧
      (∃ b, s.mem.read (s.pc + 2) = .ok b)) →
    step s = .next t → t.out = s.out)

/-- MUL completes for every pair of legal registers, the same one twice included: both are read, then
`x[d] <- (x[d] * x[s]) mod 256`, `pc <- pc + 3`, nothing else (template of MUL, pseudocode). -/
def Obligations.MulCompletes : Prop :=
  ∀ (s : State) (rd rs : Byte) (hd : rd.toNat < 8) (hs : rs.toNat < 8),
    ∃ p : Byte, p.toNat = ((s.x[rd.toNat]'hd).toNat * (s.x[rs.toNat]'hs).toNat) % 256 ∧
      exec (.mul rd rs) s = .next { s with x := s.x.set rd.toNat p hd, pc := s.pc + 3 }

/-- R136: `ALU(MUL, a, b) = (a * b) mod 256` of the unsigned values; the same bits as the signed product modulo 256;
commutative, 0 absorbing, 1 identity. -/
def Obligations.AluMultipliesModulo256 : Prop :=
  ∀ a b : Byte,
    (alu .mul a b).toNat = (a.toNat * b.toNat) % 256 ∧
    alu .mul a b = BitVec.ofInt 8 (a.toInt * b.toInt) ∧
    alu .mul a b = alu .mul b a ∧
    alu .mul a 0#8 = 0#8 ∧ alu .mul 0#8 a = 0#8 ∧
    alu .mul a 1#8 = a ∧ alu .mul 1#8 a = a

/-- LDI, PRN and MUL trap on a register operand above 7: the fault names the operand byte, for MUL operandA before operandB,
and nothing but `err` and `run` changes (the spec's decisions D6, D7 and D10). -/
def Obligations.IllegalRegisterOperandTraps : Prop :=
  ∀ (s : State) (a b : Byte),
    (7 < a.toNat →
      exec (.ldi a b) s = .next { s with err := some (.invalidRegister a), run := .halted } ∧
      exec (.prn a) s = .next { s with err := some (.invalidRegister a), run := .halted } ∧
      exec (.mul a b) s = .next { s with err := some (.invalidRegister a), run := .halted }) ∧
    (a.toNat ≤ 7 → 7 < b.toNat →
      exec (.mul a b) s = .next { s with err := some (.invalidRegister b), run := .halted })

/-- The candidate bytes HLT (both) and PRN (operandB) do not use have no effect, be they legal register numbers or not; only their
addresses matter (30_encoding.md, opcode map). The last clause, that a step with `pc + 2 >= N` faults whatever the opcode, is the
spec's decision D5 (log 17). -/
def Obligations.UnusedOperandBytesAreIgnored : Prop :=
  ∀ s : State, s.run = .running →
    (s.pc + 2 < s.mem.size → s.mem.read s.pc = .ok 0x01#8 →
      step s = .next { s with run := .halted, pc := s.pc + 1 }) ∧
    (∀ (rs : Byte) (hs : rs.toNat < 8), s.pc + 2 < s.mem.size → s.mem.read s.pc = .ok 0x43#8 →
      s.mem.read (s.pc + 1) = .ok rs →
      step s = .next { s with out := s.out ++ [s.x[rs.toNat]'hs], pc := s.pc + 2 }) ∧
    (s.mem.size ≤ s.pc + 2 → ∃ t, step s = .next t ∧ FaultedHalt t)

/-! ### Faults -/

/-- R151: an opcode byte outside the table is recorded as it is and the core halts; registers and memory stay; no later
`tick` retries it. -/
def Obligations.UnknownOpcodeIsReportedAndHalts : Prop :=
  ∀ (s : State) (ir a b : Byte), s.run = .running →
    s.mem.read s.pc = .ok ir → s.mem.read (s.pc + 1) = .ok a → s.mem.read (s.pc + 2) = .ok b → ¬ IsOpcode ir →
    ∃ t, step s = .next t ∧ t.err = some (.unknownInstruction ir) ∧ t.run = .halted ∧ t.x = s.x ∧ t.mem = s.mem ∧
      ∀ k, Sys2Proof.core.run k t = .next t

/-- A step whose `pc + 2` reaches N faults with the first of its three addresses that is not below N, which is N itself when
`pc <= N`; nothing but `err` and `run` changes, whatever the opcode (the spec's decisions D3, D5 and D7). -/
def Obligations.ReadsPastTheEndRaiseOutOfBounds : Prop :=
  ∀ s : State, s.run = .running → s.mem.size ≤ s.pc + 2 →
    step s = .next { s with err := some (.outOfBounds (max s.pc s.mem.size)), run := .halted } ∧
    (s.pc ≤ s.mem.size → step s = .next { s with err := some (.outOfBounds s.mem.size), run := .halted })

/-- A step reports the first fault that applies: the three reads in order, the opcode, operandA, operandB of MUL (the spec's
decision D10); where none applies the error record is left. -/
def Obligations.FirstFaultIsReported : Prop :=
  ∀ s t : State, s.run = .running → step s = .next t →
    (s.mem.size ≤ s.pc → t.err = some (.outOfBounds s.pc)) ∧
    (s.pc + 1 = s.mem.size → t.err = some (.outOfBounds (s.pc + 1))) ∧
    (s.pc + 2 = s.mem.size → t.err = some (.outOfBounds (s.pc + 2))) ∧
    (∀ ir a b : Byte, s.mem.read s.pc = .ok ir → s.mem.read (s.pc + 1) = .ok a → s.mem.read (s.pc + 2) = .ok b →
      t.err =
        if ¬ IsOpcode ir then some (.unknownInstruction ir)
        else if ir ≠ 0x01#8 ∧ 7 < a.toNat then some (.invalidRegister a)
        else if ir = 0xAA#8 ∧ 7 < b.toNat then some (.invalidRegister b)
        else s.err)

/-- Faults are precise: a step that records one changes `err` and `run` and nothing else; registers, `pc`, memory and output
keep the values they had before it (`pc` by the spec's decision D7). -/
def Obligations.FaultingStepChangesOnlyErrAndRun : Prop :=
  ∀ s t : State, s.run = .running → s.err = none → step s = .next t → t.err ≠ none →
    t = { s with err := t.err, run := .halted }

/-- A running core with no error recorded comes to a clean halt exactly by a step at an HLT with its three bytes inside the
memory; a step that records a fault, any of the three, comes to a faulted halt; `err` tells the two ends apart (60_exceptions.md,
the two kinds of halt). That HLT's two unused bytes must lie inside the memory, `pc + 2 < N`, is the spec's decision D5
(log 17). -/
def Obligations.CleanHaltOnlyByHlt : Prop :=
  ∀ s t : State, s.run = .running → s.err = none → step s = .next t →
    (CleanHalt t ↔ s.mem.read s.pc = .ok 0x01#8 ∧ s.pc + 2 < s.mem.size) ∧
    (∀ f, t.err = some f → FaultedHalt t) ∧
    (t.run = .halted → ((CleanHalt t ∧ ¬ FaultedHalt t) ∨ (FaultedHalt t ∧ ¬ CleanHalt t)))

/-! ### Runs -/

/-- Along any number of `tick`s from a state with the invariant: the output only grows at its end, by at most one value a
`tick`; `pc` never goes back; a recorded error stays; HALTED stays. -/
def Obligations.RunsOnlyExtendTheirHistory : Prop :=
  ∀ (k : Nat) (s t : State), Inv s → Sys2Proof.core.run k s = .next t →
    (∃ l : List Byte, t.out = s.out ++ l ∧ l.length ≤ k) ∧ s.pc ≤ t.pc ∧
    (∀ f, s.err = some f → t.err = some f) ∧ (s.run = .halted → t.run = .halted)

/-- The result of a step depends on the registers, `pc`, `run`, `err`, `out` and the three cells it fetches; another memory
that answers those three reads alike gives the same step. -/
def Obligations.OnlyTheThreeFetchedCellsMatter : Prop :=
  ∀ (s t : State) (m : Memory),
    m.read s.pc = s.mem.read s.pc → m.read (s.pc + 1) = s.mem.read (s.pc + 1) →
    m.read (s.pc + 2) = s.mem.read (s.pc + 2) → step s = .next t →
    step { s with mem := m } = .next { t with mem := m }

/-- The memory port, as the model's own function `fetchAddresses` lists it (DESIGN CHOICE, log 16: a list beside `fetch`, tied to
it by FetchReadsThePresentedAddresses; that the port is described by transactions is the spec's decision D1): for a running step
one to three addresses from `pc` on, ascending by one; all but the last are below N, none is above N, and fewer than three only
when the last failed; in HALTED none. -/
def Obligations.MemoryPortPresentsAtMostThreeAddresses : Prop :=
  (∀ s : State, s.run = .running → s.pc ≤ s.mem.size →
    ∃ n, 1 ≤ n ∧ n ≤ 3 ∧ fetchAddresses s = List.range' s.pc n ∧ s.pc + n ≤ s.mem.size + 1 ∧
      (n < 3 → s.pc + n = s.mem.size + 1)) ∧
  (∀ s : State, s.run = .halted → fetchAddresses s = [])

/-- The reads the step really makes are those `fetchAddresses` lists (the model's own function, log 16): while RUNNING, `fetch`
fails exactly with OutOfBounds of the last address listed, when that one is not below N, and fails in no other way; when it
succeeds, the three addresses from `pc` on are listed and their bytes are the three values it forms. That all three are read
whatever the opcode, up to a failing one, is the spec's decision D5, the list of transactions its decision D1 (log 17). -/
def Obligations.FetchReadsThePresentedAddresses : Prop :=
  ∀ s : State, s.run = .running →
    (∀ a, fetch s = .error (.outOfBounds a) ↔ (fetchAddresses s).getLast? = some a ∧ s.mem.size ≤ a) ∧
    (∀ f, fetch s = .error f → ∃ a, f = .outOfBounds a) ∧
    (∀ w, fetch s = .ok w → fetchAddresses s = [s.pc, s.pc + 1, s.pc + 2] ∧
      (fetchAddresses s).map s.mem.read = [.ok w.ir, .ok w.operandA, .ok w.operandB])

/-- Every run is finite: from any state HALTED is reached within N-1-pc `tick`s (within 1 where that is 0), so within N-1 of
the launch when N >= 3 and within 1 when N < 3. The bound rests on the spec's decision D5, by which a step at `pc > N-3` faults
(log 17). -/
def Obligations.EveryRunHaltsWithinTheBound : Prop :=
  ∀ (s : State) (k : Nat), max 1 (s.mem.size - 1 - s.pc) ≤ k →
    ∃ t, Sys2Proof.core.run k s = .next t ∧ t.run = .halted

/-- A driver that stops invoking `tick` in HALTED and one that goes on give the same state. -/
def Obligations.DriverIsRepeatedTicks : Prop :=
  ∀ (k : Nat) (s : State), driver k s = Sys2Proof.core.run k s

/-- A run ends well only past an HLT byte of the memory it was launched with, at or before N-3, and with `pc` just past that
byte; a run that ends with a recorded fault ends on the byte that explains it (`pc` by the spec's decision D7, N-3 by D5; that
nothing else writes the memory during the run is log 12). The step lemma behind it is StepKeepsTheInvariant. -/
def Obligations.EndOfARunIsExplainedByItsMemory : Prop :=
  ∀ (k : Nat) (s t : State), Inv s → Sys2Proof.core.run k s = .next t → t.run = .halted →
    (t.err = none → 1 ≤ t.pc ∧ t.pc + 1 < s.mem.size ∧ s.mem.read (t.pc - 1) = .ok 0x01#8) ∧
    (∀ f, t.err = some f → FaultExplained f { t with mem := s.mem })
end

