-- ==== Sys2Proof/Laws/Decode.lean ====
section
/-! SUPPORT. Everything the decoder can answer, the length table, and the register operand form. -/

namespace Sys2Proof

@[simp] theorem instrLength_opHLT : instrLength opHLT = 1 := rfl
@[simp] theorem instrLength_opLDI : instrLength opLDI = 3 := rfl
@[simp] theorem instrLength_opPRN : instrLength opPRN = 2 := rfl
@[simp] theorem instrLength_opMUL : instrLength opMUL = 3 := rfl

theorem legalRegister_iff {i : Byte} : legalRegister i = true ↔ i.toNat ≤ 7 := by simp [legalRegister]

/-- The cases of P-R92 (R92). -/
theorem decode_cases (ir a b : Byte) :
    (ir = opHLT ∧ decode ir a b = .ok .hlt) ∨
    (ir = opLDI ∧ a.toNat ≤ 7 ∧ decode ir a b = .ok (.ldi a b)) ∨
    (ir = opPRN ∧ a.toNat ≤ 7 ∧ decode ir a b = .ok (.prn a)) ∨
    (ir = opMUL ∧ a.toNat ≤ 7 ∧ b.toNat ≤ 7 ∧ decode ir a b = .ok (.mul a b)) ∨
    ((ir = opLDI ∨ ir = opPRN ∨ ir = opMUL) ∧ 7 < a.toNat ∧ decode ir a b = .error (.invalidRegister a)) ∨
    (ir = opMUL ∧ a.toNat ≤ 7 ∧ 7 < b.toNat ∧ decode ir a b = .error (.invalidRegister b)) ∨
    (ir ≠ opHLT ∧ ir ≠ opLDI ∧ ir ≠ opPRN ∧ ir ≠ opMUL ∧ decode ir a b = .error (.unknownInstruction ir)) := by
  unfold decode
  split_ifs <;> simp_all

namespace Machine

/-- A register operand is either a legal index or the fault that names it (R85). -/
theorem regIndex_cases (i : Byte) :
    (∃ h : i.toNat < 8, regIndex i = .ok ⟨i.toNat, h⟩) ∨ (7 < i.toNat ∧ regIndex i = .error (.invalidRegister i)) := by
  rcases Nat.lt_or_ge i.toNat 8 with h | h
  · exact .inl ⟨h, by simp [regIndex, h]⟩
  · exact .inr ⟨h, by simp [regIndex, Nat.not_lt.mpr h]⟩

end Machine

end Sys2Proof
end

