-- ==== Sys2Proof/Laws/Memory.lean ====
section
/-! SUPPORT. What a memory operation can do, and that each one keeps the canonical form. -/

namespace Sys2Proof.Machine

theorem read_of_lt {m : Memory} {a : Nat} (h : a < m.size) : m.read a = .ok (cellsRead m.cells a) := by
  simp [Memory.read, h]

theorem read_of_ge {m : Memory} {a : Nat} (h : m.size ≤ a) : m.read a = .error (.outOfBounds a) := by
  simp [Memory.read, Nat.not_lt.mpr h]

/-- A read either gives the cell of an address inside the memory or fails with an address outside it (R51). -/
theorem read_cases (m : Memory) (a : Nat) :
    (a < m.size ∧ m.read a = .ok (cellsRead m.cells a)) ∨ (m.size ≤ a ∧ m.read a = .error (.outOfBounds a)) := by
  rcases Nat.lt_or_ge a m.size with h | h
  · exact .inl ⟨h, read_of_lt h⟩
  · exact .inr ⟨h, read_of_ge h⟩

/-- What a write that succeeds has done (R52). -/
theorem write_ok {m m' : Memory} {a v : Nat} (h : m.write a v = .ok m') :
    a < m.size ∧ m'.size = m.size ∧ m'.cells = cellsWrite m.cells a (BitVec.ofNat 8 v) := by
  unfold Memory.write at h
  split at h
  · cases h; exact ⟨‹_›, rfl, rfl⟩
  · cases h

theorem cellsWf_mono {n lo lo' : Nat} (hle : lo' ≤ lo) {c : List Host.Cell} (h : cellsWf n lo c = true) :
    cellsWf n lo' c = true := by
  cases c with
  | nil => rfl
  | cons head rest =>
    obtain ⟨a, v⟩ := head
    simp only [cellsWf, Bool.and_eq_true, decide_eq_true_eq] at h ⊢
    exact ⟨⟨⟨hle.trans h.1.1.1, h.1.1.2⟩, h.1.2⟩, h.2⟩

/-- A write keeps a cell list canonical. -/
theorem cellsWrite_wf {n a : Nat} (v : Byte) (ha : a < n) (c : List Host.Cell) :
    ∀ lo, lo ≤ a → cellsWf n lo c = true → cellsWf n lo (cellsWrite c a v) = true := by
  induction c with
  | nil =>
    intro lo hlo _
    unfold cellsWrite
    split <;> simp_all [cellsWf]
  | cons head rest ih =>
    obtain ⟨b, w⟩ := head
    intro lo hlo h
    simp only [cellsWf, Bool.and_eq_true, decide_eq_true_eq] at h
    obtain ⟨⟨⟨hlb, hbn⟩, hw⟩, hrest⟩ := h
    unfold cellsWrite
    split
    · split <;> simp_all [cellsWf]
    · split
      · split
        · exact cellsWf_mono (by omega) hrest
        · simp_all [cellsWf]
      · simpa [cellsWf, hlb, hbn, hw] using ih (b + 1) (by omega) hrest

theorem ofCapacity_wf {n : Nat} (h : 1 ≤ n) : (Memory.ofCapacity n).wf = true := by
  simp [Memory.wf, Memory.ofCapacity, cellsWf, h]

theorem write_wf {m m' : Memory} {a v : Nat} (hm : m.wf = true) (h : m.write a v = .ok m') : m'.wf = true := by
  obtain ⟨ha, hsize, hcells⟩ := write_ok h
  simp only [Memory.wf, Bool.and_eq_true, decide_eq_true_eq, hsize, hcells] at hm ⊢
  exact ⟨hm.1, cellsWrite_wf _ ha _ 0 (Nat.zero_le a) hm.2⟩

theorem load_wf (bytes : List Byte) :
    ∀ {m m' : Memory} {a : Nat}, m.wf = true → m.load a bytes = .ok m' → m'.wf = true ∧ m'.size = m.size := by
  induction bytes with
  | nil => intro m m' a hm h; cases h; exact ⟨hm, rfl⟩
  | cons v rest ih =>
    intro m m' a hm h
    unfold Memory.load at h
    split at h
    · cases h
    · rename_i m₁ hw
      obtain ⟨hwf, hsize⟩ := ih (write_wf hm hw) h
      exact ⟨hwf, hsize.trans (write_ok hw).2.1⟩

theorem place_wf (bytes : List Byte) :
    ∀ {m : Memory} {a : Nat}, m.wf = true → (m.place a bytes).wf = true ∧ (m.place a bytes).size = m.size := by
  induction bytes with
  | nil => intro m a hm; exact ⟨hm, rfl⟩
  | cons v rest ih =>
    intro m a hm
    unfold Memory.place
    split
    · exact ⟨hm, rfl⟩
    · rename_i m₁ hw
      obtain ⟨hwf, hsize⟩ := ih (a := a + 1) (write_wf hm hw)
      exact ⟨hwf, hsize.trans (write_ok hw).2.1⟩

theorem withFetchWord_wf {s : State} (nbits w : Nat) (h : s.mem.wf = true) : (s.withFetchWord nbits w).mem.wf = true :=
  (place_wf _ h).1

theorem reset_mem_wf : State.reset.mem.wf = true := by decide

end Sys2Proof.Machine
end

