-- ==== Sys2Proof/Laws/PerInstr.lean ====
section
/-! SUPPORT. Statements about every instruction as syntax, one lemma per constructor. -/

/-- The encoding of an instruction is as long as its opcode byte says (R82). -/
def Sys2Proof.Laws.EncodeLength.Statement (i : Sys2Proof.Instr) : Prop :=
  (Sys2Proof.encode i).length = Sys2Proof.instrLength i.opcode

theorem Sys2Proof.Laws.EncodeLength.hlt : Sys2Proof.Laws.EncodeLength.Statement .hlt := by
  simp [Sys2Proof.Laws.EncodeLength.Statement, Sys2Proof.encode, Sys2Proof.Instr.opcode]

theorem Sys2Proof.Laws.EncodeLength.ldi (rd imm : Sys2Proof.Byte) :
    Sys2Proof.Laws.EncodeLength.Statement (.ldi rd imm) := by
  simp [Sys2Proof.Laws.EncodeLength.Statement, Sys2Proof.encode, Sys2Proof.Instr.opcode]

theorem Sys2Proof.Laws.EncodeLength.prn (rs : Sys2Proof.Byte) : Sys2Proof.Laws.EncodeLength.Statement (.prn rs) := by
  simp [Sys2Proof.Laws.EncodeLength.Statement, Sys2Proof.encode, Sys2Proof.Instr.opcode]

theorem Sys2Proof.Laws.EncodeLength.mul (rd rs : Sys2Proof.Byte) :
    Sys2Proof.Laws.EncodeLength.Statement (.mul rd rs) := by
  simp [Sys2Proof.Laws.EncodeLength.Statement, Sys2Proof.encode, Sys2Proof.Instr.opcode]
end

