-- ==== Sys2Proof/Laws/State.lean ====
section
/-! SUPPORT. One lemma per field per update of the state, so that no proof unfolds a record update. -/

namespace Sys2Proof.Machine

theorem State.ext_fields {s t : State} (hx : s.x = t.x) (hpc : s.pc = t.pc) (hrun : s.run = t.run)
    (herr : s.err = t.err) (hmem : s.mem = t.mem) (hout : s.out = t.out) : s = t := by
  cases s; cases t; simp_all

variable (s : State)

@[simp] theorem writeReg_x (i : RegIdx) (v : Nat) : (writeReg i v s).x = s.x.set i (BitVec.ofNat 8 v) := rfl
@[simp] theorem writeReg_pc (i : RegIdx) (v : Nat) : (writeReg i v s).pc = s.pc := rfl
@[simp] theorem writeReg_run (i : RegIdx) (v : Nat) : (writeReg i v s).run = s.run := rfl
@[simp] theorem writeReg_err (i : RegIdx) (v : Nat) : (writeReg i v s).err = s.err := rfl
@[simp] theorem writeReg_mem (i : RegIdx) (v : Nat) : (writeReg i v s).mem = s.mem := rfl
@[simp] theorem writeReg_out (i : RegIdx) (v : Nat) : (writeReg i v s).out = s.out := rfl

@[simp] theorem emit_x (v : Byte) : (emit v s).x = s.x := rfl
@[simp] theorem emit_pc (v : Byte) : (emit v s).pc = s.pc := rfl
@[simp] theorem emit_run (v : Byte) : (emit v s).run = s.run := rfl
@[simp] theorem emit_err (v : Byte) : (emit v s).err = s.err := rfl
@[simp] theorem emit_mem (v : Byte) : (emit v s).mem = s.mem := rfl
@[simp] theorem emit_out (v : Byte) : (emit v s).out = s.out ++ [v] := rfl

@[simp] theorem halt_x : (halt s).x = s.x := rfl
@[simp] theorem halt_pc : (halt s).pc = s.pc := rfl
@[simp] theorem halt_run : (halt s).run = .halted := rfl
@[simp] theorem halt_err : (halt s).err = s.err := rfl
@[simp] theorem halt_mem : (halt s).mem = s.mem := rfl
@[simp] theorem halt_out : (halt s).out = s.out := rfl

@[simp] theorem advance_x (ir : Byte) : (advance ir s).x = s.x := rfl
@[simp] theorem advance_pc (ir : Byte) : (advance ir s).pc = s.pc + instrLength ir := rfl
@[simp] theorem advance_run (ir : Byte) : (advance ir s).run = s.run := rfl
@[simp] theorem advance_err (ir : Byte) : (advance ir s).err = s.err := rfl
@[simp] theorem advance_mem (ir : Byte) : (advance ir s).mem = s.mem := rfl
@[simp] theorem advance_out (ir : Byte) : (advance ir s).out = s.out := rfl

@[simp] theorem raise_x (f : Fault) : (raise f s).x = s.x := rfl
@[simp] theorem raise_pc (f : Fault) : (raise f s).pc = s.pc := rfl
@[simp] theorem raise_run (f : Fault) : (raise f s).run = .halted := rfl
@[simp] theorem raise_err (f : Fault) : (raise f s).err = some f := rfl
@[simp] theorem raise_mem (f : Fault) : (raise f s).mem = s.mem := rfl
@[simp] theorem raise_out (f : Fault) : (raise f s).out = s.out := rfl

end Sys2Proof.Machine
end

