-- ==== Sys2Proof/Laws/Step.lean ====
section
/-! SUPPORT. Everything the fetch, an instruction's meaning and a step can do, said once each. -/

namespace Sys2Proof.Machine

/-- A fetch either reads three cells inside the memory or fails at the first address outside it (R101, R102). -/
theorem fetch_cases (s : State) :
    (s.pc + 2 < s.mem.size ∧
      fetch s = .ok ⟨cellsRead s.mem.cells s.pc, cellsRead s.mem.cells (s.pc + 1), cellsRead s.mem.cells (s.pc + 2)⟩) ∨
    (s.mem.size ≤ s.pc + 2 ∧ fetch s = .error (.outOfBounds (max s.pc s.mem.size))) := by
  unfold fetch
  rcases read_cases s.mem s.pc with ⟨h0, e0⟩ | ⟨h0, e0⟩
  · rcases read_cases s.mem (s.pc + 1) with ⟨h1, e1⟩ | ⟨h1, e1⟩
    · rcases read_cases s.mem (s.pc + 2) with ⟨h2, e2⟩ | ⟨h2, e2⟩
      · exact .inl ⟨h2, by simp [e0, e1, e2]⟩
      · exact .inr ⟨h2, by simp [e0, e1, e2]; omega⟩
    · exact .inr ⟨by omega, by simp [e0, e1]; omega⟩
  · exact .inr ⟨by omega, by simp [e0]; omega⟩

/-- What the meaning of a well-formed instruction can do. -/
theorem exec_cases {i : Instr} {s : State} {o : Host.Outcome State Fault Refusal} (hi : WellFormed i) (h : exec i s = o) :
    (i = .hlt ∧ o = .next (advance opHLT (halt s))) ∨
    (∃ rd imm, ∃ hd : rd.toNat < 8, i = .ldi rd imm ∧ o = .next (advance opLDI (writeReg ⟨rd.toNat, hd⟩ imm.toNat s))) ∨
    (∃ rs, ∃ hs : rs.toNat < 8, i = .prn rs ∧ o = .next (advance opPRN (emit (readReg ⟨rs.toNat, hs⟩ s) s))) ∨
    (∃ rd rs, ∃ hd : rd.toNat < 8, ∃ hs : rs.toNat < 8, i = .mul rd rs ∧
      o = .next (advance opMUL (writeReg ⟨rd.toNat, hd⟩
        (alu .mul (readReg ⟨rd.toNat, hd⟩ s) (readReg ⟨rs.toNat, hs⟩ s)).toNat s))) := by
  subst h
  cases i with
  | hlt => exact .inl ⟨rfl, rfl⟩
  | ldi rd imm =>
    have hd : rd.toNat < 8 := Nat.lt_succ_of_le (legalRegister_iff.mp hi)
    exact .inr (.inl ⟨rd, imm, hd, rfl, by simp [exec, execLdi, regIndex, hd]⟩)
  | prn rs =>
    have hs : rs.toNat < 8 := Nat.lt_succ_of_le (legalRegister_iff.mp hi)
    exact .inr (.inr (.inl ⟨rs, hs, rfl, by simp [exec, execPrn, regIndex, hs]⟩))
  | mul rd rs =>
    obtain ⟨h1, h2⟩ := (Bool.and_eq_true _ _).mp hi
    have hd : rd.toNat < 8 := Nat.lt_succ_of_le (legalRegister_iff.mp h1)
    have hs : rs.toNat < 8 := Nat.lt_succ_of_le (legalRegister_iff.mp h2)
    exact .inr (.inr (.inr ⟨rd, rs, hd, hs, rfl, by simp [exec, execMul, regIndex, hd, hs]⟩))

/-- What one step can do: nothing in HALTED; a fault of the reads; a fault of the decoder; or one decoded instruction's own
effect. The three bytes are those in memory at `pc`, `pc + 1`, `pc + 2`. -/
theorem step_cases (s : State) :
    (s.run = .halted ∧ step s = .next s) ∨
    (s.run = .running ∧ s.mem.size ≤ s.pc + 2 ∧ step s = .next (raise (.outOfBounds (max s.pc s.mem.size)) s)) ∨
    (∃ ir a b, s.run = .running ∧ s.pc + 2 < s.mem.size ∧
      s.mem.read s.pc = .ok ir ∧ s.mem.read (s.pc + 1) = .ok a ∧ s.mem.read (s.pc + 2) = .ok b ∧
      ((∃ e, decode ir a b = .error e ∧ step s = .next (raise (decodeFault e) s)) ∨
        (∃ i, decode ir a b = .ok i ∧ step s = exec i s))) := by
  cases hr : s.run with
  | halted => exact .inl ⟨rfl, by simp [step, hr]⟩
  | running =>
    rcases fetch_cases s with ⟨hN, hf⟩ | ⟨hN, hf⟩
    · refine .inr (.inr ⟨_, _, _, rfl, hN, read_of_lt (by omega), read_of_lt (by omega), read_of_lt hN, ?_⟩)
      cases hd : decode (cellsRead s.mem.cells s.pc) (cellsRead s.mem.cells (s.pc + 1))
          (cellsRead s.mem.cells (s.pc + 2)) with
      | error e => exact .inl ⟨e, rfl, by simp [step, hr, hf, hd]⟩
      | ok i => exact .inr ⟨i, rfl, by simp [step, hr, hf, hd]⟩
    · exact .inr (.inl ⟨rfl, hN, by simp [step, hr, hf]⟩)

end Sys2Proof.Machine
end

