-- ==== Sys2Proof/Laws/Run.lean ====
section
/-! SUPPORT. Unfolding one `tick` of a run, the host's and the driver's. -/

namespace Sys2Proof.Machine

theorem run_zero (s : State) : Sys2Proof.core.run 0 s = .next s := rfl

/-- A run of `k + 1` ticks whose first tick answers a next state is a run of `k` ticks from it. -/
theorem run_succ {s t : State} (h : step s = .next t) (k : Nat) : Sys2Proof.core.run (k + 1) s = Sys2Proof.core.run k t := by
  have h' : Sys2Proof.core.step s = .next t := h
  simp only [Host.Core.run, h']

/-- The driver's first interval while RUNNING. -/
theorem driver_succ {s t : State} (hr : s.run = .running) (h : step s = .next t) (k : Nat) :
    driver (k + 1) s = driver k t := by
  simp only [driver, hr, h]

theorem driver_halted {s : State} (hr : s.run = .halted) : ∀ k, driver k s = .next s
  | 0 => rfl
  | k + 1 => by simp only [driver, hr]

end Sys2Proof.Machine
end

