-- ==== Sys2Proof/Machine/Flags.lean ====
section
/-! DEFINITION. Flag computations: there are none. "The core has no status flags, condition codes or predicate registers"
(spec/10_state.md R30), and the ALU produces no flag, carry, overflow or status beside its result (spec/44_mul_alu.md R135),
so this file declares nothing. -/
end

