-- ==== Sys2Proof/Tests/Slice0.lean ====
section
/-! SUPPORT. Tests: expected values are those of spec/95_test_vectors.md (vector groups V-DEC, V-LEN, V-HLT, V-LDI, V-PRN, V-MUL,
V-FLT, V-MEM, program P1) or are written out from the encoding tables of spec/30_encoding.md. Then, for every obligation with
hypotheses, a theorem that meets them, one for each clause where a statement has several. -/

namespace Sys2Proof.Tests

open Sys2Proof.Machine

/-- A memory of `n` cells with bytes from address `a` on. -/
def memAt (n a : Nat) (bytes : List Byte) : Memory := (Memory.ofCapacity n).place a bytes

/-- The reset state, but with `pc` and the bytes there. -/
def at_ (n pc : Nat) (bytes : List Byte) : State := { State.reset with pc := pc, mem := memAt n pc bytes }

/-- The next state of an outcome. -/
def nextOf : Host.Outcome State Fault Refusal → Option State
  | .next t => some t
  | _ => none

/-! ### Well-formedness: an ill-formed term for each check, refused -/

theorem test_wf_refuses_ldi_8 : wellFormed (.ldi 8#8 1#8) = false := by decide
theorem test_wf_refuses_prn_255 : wellFormed (.prn 255#8) = false := by decide
theorem test_wf_refuses_mul_first : wellFormed (.mul 8#8 0#8) = false := by decide
theorem test_wf_refuses_mul_second : wellFormed (.mul 0#8 9#8) = false := by decide
theorem test_wf_accepts_r7 : (wellFormed (.ldi 7#8 255#8) && wellFormed (.mul 7#8 7#8)) = true := by decide

/-! ### Decoding: words written out bit by bit (tables T-R83a to T-R83c), and V-DEC -/

theorem test_decode_hlt : decode 0b00000001#8 0xFF#8 0xFF#8 = .ok .hlt := by rfl
theorem test_decode_ldi : decode 0b10011001#8 0b00000000#8 0b00001000#8 = .ok (.ldi 0#8 8#8) := by rfl
theorem test_decode_prn : decode 0b01000011#8 0b00000101#8 0b11000111#8 = .ok (.prn 5#8) := by rfl
theorem test_decode_mul : decode 0b10101010#8 0b00000111#8 0b00000110#8 = .ok (.mul 7#8 6#8) := by rfl
theorem test_decode_ldi_r8 : decode 0x99#8 0x08#8 0x01#8 = .error (.invalidRegister 8#8) := by rfl
theorem test_decode_mul_first_operand_first : decode 0xAA#8 0x09#8 0x0A#8 = .error (.invalidRegister 9#8) := by rfl
theorem test_decode_neighbours_refused :
    decode 0x00#8 0#8 0#8 = .error (.unknownInstruction 0x00#8) ∧ decode 0x98#8 0#8 0#8 = .error (.unknownInstruction 0x98#8) ∧
    decode 0x42#8 0#8 0#8 = .error (.unknownInstruction 0x42#8) ∧ decode 0x2A#8 0#8 0#8 = .error (.unknownInstruction 0x2A#8) ∧
    decode 0xC5#8 1#8 2#8 = .error (.unknownInstruction 0xC5#8) := ⟨rfl, rfl, rfl, rfl, rfl⟩

/-- The words of opcode_table.json with zero operands. -/
theorem test_table_words :
    decodeTableWord 8 0x01 = some .hlt ∧ decodeTableWord 24 0x99 = some (.ldi 0#8 0#8) ∧
    decodeTableWord 16 0x43 = some (.prn 0#8) ∧ decodeTableWord 24 0xAA = some (.mul 0#8 0#8) := by decide

/-- `LDI R5,0x7E`: the second byte is bits 15..8, the third bits 23..16. -/
theorem test_table_word_operands : decodeTableWord 24 0x7E0599 = some (.ldi 5#8 0x7E#8) := by decide

/-- V-LEN. -/
theorem test_length_table :
    (instrLength 0x3F#8, instrLength 0x40#8, instrLength 0xBF#8, instrLength 0xC0#8) = (1, 2, 3, 4) := by decide

/-- The forms of R93's line. -/
theorem test_asm : Instr.asm (.ldi 0#8 8#8) = "LDI R0,8" ∧ Instr.asm (.mul 0#8 1#8) = "MUL R0,R1" := ⟨rfl, rfl⟩

/-! ### One step of each instruction, right after reset but for the placed word -/

theorem test_reset_word_hlt :
    (nextOf (step (State.reset.withFetchWord 8 0x01))).map (fun t => (t.run, t.err, t.pc)) = some (.halted, none, 1) := by decide
theorem test_reset_word_ldi :
    (nextOf (step (State.reset.withFetchWord 24 0xFF0799))).map (fun t => (t.x[7], t.x[0], t.pc)) = some (255#8, 0#8, 3) := by
  decide
theorem test_reset_word_prn :
    (nextOf (step (State.reset.withFetchWord 16 0x0343))).map (fun t => (t.out, t.pc)) = some ([0#8], 2) := by decide
theorem test_reset_word_mul :
    (nextOf (step (State.reset.withFetchWord 24 0x0100AA))).map (fun t => (t.x[0], t.pc, t.err)) = some (0#8, 3, none) := by
  decide

/-! ### Vectors -/

/-- V-HLT, garbage after HLT. -/
theorem test_hlt_ignores_operands :
    (nextOf (step (at_ 256 4 [0x01#8, 0xEE#8, 0x77#8]))).map (fun t => (t.run, t.err, t.pc)) = some (.halted, none, 5) := by
  decide
/-- V-HLT, HLT at N-2. -/
theorem test_hlt_at_end_faults :
    (nextOf (step (at_ 256 254 [0x01#8, 0x00#8]))).map (fun t => (t.run, t.err, t.pc)) =
      some (.halted, some (.outOfBounds 256), 254) := by decide
/-- V-LDI, `pc` reaches N. -/
theorem test_ldi_at_end :
    (nextOf (step (at_ 256 253 [0x99#8, 0x00#8, 0x05#8]))).map (fun t => (t.x[0], t.pc)) = some (5#8, 256) := by decide
/-- V-LDI, register 8. -/
theorem test_ldi_r8_faults :
    (nextOf (step (at_ 256 0 [0x99#8, 0x08#8, 0x01#8]))).map (fun t => (t.err, t.pc, t.run)) =
      some (some (.invalidRegister 8#8), 0, .halted) := by decide
/-- V-PRN, output grows at its end, operandB ignored. -/
theorem test_prn_appends :
    (nextOf (step { at_ 256 0 [0x43#8, 0x07#8, 0x99#8] with
      x := #v[0#8, 0#8, 0#8, 0#8, 0#8, 0#8, 0#8, 255#8], out := [1#8, 2#8] })).map (fun t => (t.out, t.pc)) =
      some ([1#8, 2#8, 255#8], 2) := by decide
/-- V-PRN, register 8. -/
theorem test_prn_r8_faults :
    (nextOf (step (at_ 256 0 [0x43#8, 0x08#8, 0x00#8]))).map (fun t => (t.err, t.out, t.pc)) =
      some (some (.invalidRegister 8#8), [], 0) := by decide
/-- V-MUL, example E3 corrected: 200 * 200 mod 256 = 64, source kept. -/
theorem test_mul_wraps :
    (nextOf (step { at_ 256 0 [0xAA#8, 0x00#8, 0x01#8] with
      x := #v[200#8, 200#8, 0#8, 0#8, 0#8, 0#8, 0#8, 0#8] })).map (fun t => (t.x[0], t.x[1], t.pc)) =
      some (64#8, 200#8, 3) := by decide
/-- V-MUL, one register as source and destination. -/
theorem test_mul_square :
    (nextOf (step { at_ 256 0 [0xAA#8, 0x02#8, 0x02#8] with
      x := #v[0#8, 0#8, 200#8, 0#8, 0#8, 0#8, 0#8, 0#8] })).map (fun t => t.x[2]) = some 64#8 := by decide
/-- V-FLT, the empty machine (example E5). -/
theorem test_zeroed_memory_faults :
    (nextOf (step State.reset)).map (fun t => (t.err, t.pc, t.run)) = some (some (.unknownInstruction 0#8), 0, .halted) := by
  decide
/-- V-FLT, the operand read precedes decoding. -/
theorem test_out_of_bounds_before_decode :
    (nextOf (step (at_ 256 255 [0x00#8]))).map (fun t => t.err) = some (some (.outOfBounds 256)) := by decide
/-- V-MUL, the ALU table. -/
theorem test_alu_table :
    [alu .mul 8#8 9#8, alu .mul 15#8 17#8, alu .mul 16#8 16#8, alu .mul 255#8 255#8, alu .mul 129#8 127#8, alu .mul 3#8 86#8] =
      [72#8, 255#8, 0#8, 1#8, 255#8, 2#8] := by decide
/-- V-MEM, masked write, read back, and the two ends. -/
theorem test_memory_vectors :
    ((memAt 256 10 [0x99#8]).read 10 = .ok 0x99#8) ∧
    (((Memory.ofCapacity 256).write 10 0x1AA).bind (·.read 10) = .ok 0xAA#8) ∧
    (((memAt 256 10 [0x99#8]).write 10 256).map (·.cells) = .ok []) ∧
    ((Memory.ofCapacity 256).read 256 = .error (.outOfBounds 256)) ∧
    ((Memory.ofCapacity 256).write 256 5 = .error (.outOfBounds 256)) := ⟨rfl, rfl, rfl, rfl, rfl⟩
/-- R132: `72`, `0`, `255`. -/
theorem test_sink_numeral : sinkNumeral 72#8 = ['7', '2'] ∧ sinkNumeral 0#8 = ['0'] ∧ sinkNumeral 255#8 = ['2', '5', '5'] := by
  decide
/-- Capacity 0, which the spec does not admit (log 18): the empty program launches and the first step faults. -/
theorem test_launch_without_cells :
    ((State.launch 0 []).toOption.bind (fun s => nextOf (step s))).map (fun t => t.err) = some (some (.outOfBounds 0)) ∧
    (State.launch 0 [0x01#8]).toOption = none ∧ (Memory.ofCapacity 0).wf = false := by decide
/-- V-CYC: a step at `pc = 5` reads 5, 6, 7. -/
theorem test_three_reads : fetchAddresses (at_ 256 5 []) = [5, 6, 7] := by decide

/-! ### Witnesses: states and operands that meet the hypotheses of the obligations -/

theorem witness_DecodeOfEncodeIsTheInstruction :
    (WellFormed .hlt ∧ encode .hlt <+: [0x01#8, 0xFF#8, 8#8]) ∧
    (WellFormed (.ldi 7#8 255#8) ∧ encode (.ldi 7#8 255#8) <+: [0x99#8, 7#8, 255#8]) ∧
    (WellFormed (.prn 7#8) ∧ encode (.prn 7#8) <+: [0x43#8, 7#8, 8#8]) ∧
    (WellFormed (.mul 7#8 0#8) ∧ encode (.mul 7#8 0#8) <+: [0xAA#8, 7#8, 0#8]) := by decide
theorem witness_DecodedBytesBeginWithTheEncoding : decode 0x43#8 7#8 8#8 = .ok (.prn 7#8) := rfl
theorem witness_LengthIsOperandCountPlusOne : decode 0xAA#8 7#8 0#8 = .ok (.mul 7#8 0#8) := rfl

theorem witness_MemoryRead_listed : (memAt 256 255 [9#8]).wf = true ∧ ((255, 9#8) : Host.Cell) ∈ (memAt 256 255 [9#8]).cells := by
  decide
theorem witness_MemoryRead_unlisted :
    (memAt 256 255 [9#8]).wf = true ∧ 254 < (memAt 256 255 [9#8]).size ∧ ∀ v : Byte, (254, v) ∉ (memAt 256 255 [9#8]).cells :=
  ⟨by decide, by decide, by simp [memAt, Memory.place, Memory.write, Memory.ofCapacity, cellsWrite, Memory.unlisted]⟩
theorem witness_MemoryRead_outside : (memAt 256 255 [9#8]).wf = true ∧ (memAt 256 255 [9#8]).size ≤ 256 := by decide
theorem witness_MemoryWrite :
    ((memAt 256 255 [9#8]).wf = true ∧ 255 < (memAt 256 255 [9#8]).size ∧ (254 : Nat) ≠ 255) ∧
    (memAt 256 255 [9#8]).size ≤ 256 := by decide
theorem witness_MemoryWrite_step : ∃ t, step State.reset = .next t := ⟨_, rfl⟩
theorem witness_RegisterWrite : (255 : Nat) < 256 ∧ (6 : RegIdx) ≠ 7 := by decide

theorem witness_LaunchPlacesTheProgram :
    (∃ s, State.launch 4 [0x01#8, 0#8, 7#8] = .ok s) ∧ ([0x01#8, 0#8, 7#8] : List Byte).length ≤ 4 ∧
      2 < ([0x01#8, 0#8, 7#8] : List Byte).length ∧ ([0x01#8, 0#8, 7#8] : List Byte).length ≤ 3 ∧ 3 < 4 := by
  exact ⟨⟨_, rfl⟩, by decide⟩
theorem witness_InvariantHoldsAtLaunch :
    (1 ≤ 3 ∧ ∃ s, State.launch 3 [0x01#8] = .ok s) ∧ (at_ 256 9 [1#8]).mem.wf = true := ⟨⟨by decide, _, rfl⟩, by decide⟩

/-- The smallest machine that halts cleanly (V-FLT, N = 3), with the invariant: one step from it meets the premises of the
obligations about steps and runs. -/
theorem smallest_inv : Inv (at_ 3 0 [0x01#8]) :=
  ⟨by decide, by decide, fun _ => rfl, (fun h => nomatch h.1), (fun _ h => nomatch h)⟩
theorem witness_StepKeepsTheInvariant : Inv (at_ 3 0 [0x01#8]) ∧ ∃ t, step (at_ 3 0 [0x01#8]) = .next t :=
  ⟨smallest_inv, _, rfl⟩
/-- A faulted state that satisfies the invariant (E5): its recorded byte is the one at `pc`. -/
theorem witness_StepKeepsTheInvariant_faulted : Inv (raise (.unknownInstruction 0#8) State.reset) :=
  ⟨by decide, by decide, (fun h => nomatch h), (fun h => nomatch h.2),
    fun f h => by cases h; exact ⟨rfl, by decide, rfl, by decide⟩⟩

theorem witness_StepRunsTheDecodedInstruction_ok :
    (at_ 256 253 [0x43#8, 7#8, 8#8]).run = .running ∧ (at_ 256 253 [0x43#8, 7#8, 8#8]).mem.read 253 = .ok 0x43#8 ∧
    (at_ 256 253 [0x43#8, 7#8, 8#8]).mem.read 254 = .ok 7#8 ∧ (at_ 256 253 [0x43#8, 7#8, 8#8]).mem.read 255 = .ok 8#8 ∧
    decode 0x43#8 7#8 8#8 = .ok (.prn 7#8) := ⟨rfl, rfl, rfl, rfl, rfl⟩
theorem witness_StepRunsTheDecodedInstruction_rejected :
    (at_ 256 253 [0xAA#8, 7#8, 8#8]).run = .running ∧ (at_ 256 253 [0xAA#8, 7#8, 8#8]).mem.read 253 = .ok 0xAA#8 ∧
    (at_ 256 253 [0xAA#8, 7#8, 8#8]).mem.read 254 = .ok 7#8 ∧ (at_ 256 253 [0xAA#8, 7#8, 8#8]).mem.read 255 = .ok 8#8 ∧
    decode 0xAA#8 7#8 8#8 = .error (.invalidRegister 8#8) ∧ decode 0xFF#8 7#8 8#8 = .error (.unknownInstruction 0xFF#8) :=
  ⟨rfl, rfl, rfl, rfl, rfl, rfl⟩
theorem witness_HaltedTicksChangeNothing : (halt State.reset).run = .halted ∧ (raise (.outOfBounds 256) State.reset).run = .halted :=
  ⟨rfl, rfl⟩
theorem witness_PcAdvances_halted : (halt State.reset).run = .halted ∧ step (halt State.reset) = .next (halt State.reset) :=
  ⟨rfl, rfl⟩
theorem witness_PcAdvances_runs :
    (at_ 256 253 [0x99#8, 7#8, 255#8]).run = .running ∧ (∃ t, step (at_ 256 253 [0x99#8, 7#8, 255#8]) = .next t) ∧
    (at_ 256 253 [0x99#8, 7#8, 255#8]).mem.read 253 = .ok 0x99#8 ∧ (at_ 256 253 [0x99#8, 7#8, 255#8]).mem.read 254 = .ok 7#8 ∧
    (at_ 256 253 [0x99#8, 7#8, 255#8]).mem.read 255 = .ok 255#8 ∧ decode 0x99#8 7#8 255#8 = .ok (.ldi 7#8 255#8) :=
  ⟨rfl, ⟨_, rfl⟩, rfl, rfl, rfl, rfl⟩
/-- A running step that records a fault: also the premises of FaultingStepChangesOnlyErrAndRun. -/
theorem witness_PcAdvances_faults :
    State.reset.run = .running ∧ State.reset.err = none ∧
      ∃ t, step State.reset = .next t ∧ t.err ≠ none := ⟨rfl, rfl, _, rfl, by decide⟩
theorem witness_FaultingStepChangesOnlyErrAndRun :
    (at_ 256 254 [0x01#8]).run = .running ∧ (at_ 256 254 [0x01#8]).err = none ∧
      ∃ t, step (at_ 256 254 [0x01#8]) = .next t ∧ t.err ≠ none := ⟨rfl, rfl, _, rfl, by decide⟩
theorem witness_EffectsAreConfined_each :
    (WellFormed .hlt ∧ ∃ t, exec .hlt State.reset = .next t) ∧
    (WellFormed (.ldi 7#8 255#8) ∧ ∃ t, exec (.ldi 7#8 255#8) State.reset = .next t) ∧
    (WellFormed (.prn 7#8) ∧ ∃ t, exec (.prn 7#8) State.reset = .next t) ∧
    (WellFormed (.mul 0#8 7#8) ∧ ∃ t, exec (.mul 0#8 7#8) State.reset = .next t) :=
  ⟨⟨by decide, _, rfl⟩, ⟨by decide, _, rfl⟩, ⟨by decide, _, rfl⟩, by decide, _, rfl⟩
theorem witness_EffectsAreConfined_run : ∃ t, Sys2Proof.core.run 1 (at_ 3 0 [0x01#8]) = .next t := ⟨_, rfl⟩

theorem witness_HltHaltsCleanly_last_place :
    (at_ 256 253 [0x01#8]).run = .running ∧ (at_ 256 253 [0x01#8]).err = none ∧
    (at_ 256 253 [0x01#8]).mem.read 253 = .ok 0x01#8 ∧ 253 + 2 < (at_ 256 253 [0x01#8]).mem.size := ⟨rfl, rfl, rfl, by decide⟩
theorem witness_HltHaltsCleanly_at_end :
    ((at_ 256 255 [0x01#8]).run = .running ∧ (at_ 256 255 [0x01#8]).err = none ∧
      (at_ 256 255 [0x01#8]).mem.read 255 = .ok 0x01#8 ∧ 255 + 1 = (at_ 256 255 [0x01#8]).mem.size) ∧
    ((at_ 256 254 [0x01#8]).run = .running ∧ (at_ 256 254 [0x01#8]).err = none ∧
      (at_ 256 254 [0x01#8]).mem.read 254 = .ok 0x01#8 ∧ 254 + 2 = (at_ 256 254 [0x01#8]).mem.size) :=
  ⟨⟨rfl, rfl, rfl, by decide⟩, rfl, rfl, rfl, by decide⟩

/-- The operands of LdiCompletes, PrnCompletes and MulCompletes at both ends of the register range. -/
theorem witness_Completes_operands : (0#8 : Byte).toNat < 8 ∧ (7#8 : Byte).toNat < 8 := by decide
theorem witness_LdiStoresTheImmediateAsItIs :
    (7#8 : Byte).toNat < 8 ∧ (at_ 256 253 [0x99#8, 7#8, 255#8]).run = .running ∧
    (at_ 256 253 [0x99#8, 7#8, 255#8]).mem.read 253 = .ok 0x99#8 ∧ (at_ 256 253 [0x99#8, 7#8, 255#8]).mem.read 254 = .ok 7#8 ∧
    (at_ 256 253 [0x99#8, 7#8, 255#8]).mem.read 255 = .ok 255#8 := ⟨by decide, rfl, rfl, rfl, rfl⟩
theorem witness_OnlyPrnWrites_prn :
    (7#8 : Byte).toNat < 8 ∧ (at_ 256 253 [0x43#8, 7#8, 8#8]).run = .running ∧
    (at_ 256 253 [0x43#8, 7#8, 8#8]).mem.read 253 = .ok 0x43#8 ∧ (at_ 256 253 [0x43#8, 7#8, 8#8]).mem.read 254 = .ok 7#8 ∧
    (at_ 256 253 [0x43#8, 7#8, 8#8]).mem.read 255 = .ok 8#8 := ⟨by decide, rfl, rfl, rfl, rfl⟩
/-- A step that is no executed PRN: a PRN of register 8. -/
theorem witness_OnlyPrnWrites_other :
    ¬ ((at_ 256 0 [0x43#8, 8#8]).run = .running ∧ (at_ 256 0 [0x43#8, 8#8]).mem.read 0 = .ok 0x43#8 ∧
      (∃ rs, (at_ 256 0 [0x43#8, 8#8]).mem.read 1 = .ok rs ∧ rs.toNat < 8) ∧
      (∃ b, (at_ 256 0 [0x43#8, 8#8]).mem.read 2 = .ok b)) ∧ ∃ t, step (at_ 256 0 [0x43#8, 8#8]) = .next t := by
  refine ⟨?_, _, rfl⟩
  rintro ⟨-, -, ⟨rs, h, hlt⟩, -⟩
  cases (show (.ok 8#8 : Except Fault Byte) = .ok rs from h)
  exact absurd hlt (by decide)
theorem witness_IllegalRegisterOperandTraps :
    7 < (8#8 : Byte).toNat ∧ 7 < (255#8 : Byte).toNat ∧ (7#8 : Byte).toNat ≤ 7 := by decide
theorem witness_UnusedOperandBytes :
    ((at_ 256 253 [0x01#8, 8#8, 9#8]).run = .running ∧ 253 + 2 < (at_ 256 253 [0x01#8, 8#8, 9#8]).mem.size ∧
      (at_ 256 253 [0x01#8, 8#8, 9#8]).mem.read 253 = .ok 0x01#8) ∧
    ((at_ 256 253 [0x43#8, 7#8, 9#8]).run = .running ∧ (7#8 : Byte).toNat < 8 ∧
      253 + 2 < (at_ 256 253 [0x43#8, 7#8, 9#8]).mem.size ∧ (at_ 256 253 [0x43#8, 7#8, 9#8]).mem.read 253 = .ok 0x43#8 ∧
      (at_ 256 253 [0x43#8, 7#8, 9#8]).mem.read 254 = .ok 7#8) ∧
    ((at_ 256 254 [0x43#8, 7#8]).run = .running ∧ (at_ 256 254 [0x43#8, 7#8]).mem.size ≤ 254 + 2) :=
  ⟨⟨rfl, by decide, rfl⟩, ⟨rfl, by decide, by decide, rfl, rfl⟩, rfl, by decide⟩

theorem witness_UnknownOpcodeIsReportedAndHalts :
    (at_ 256 253 [0x98#8, 1#8, 2#8]).run = .running ∧ (at_ 256 253 [0x98#8, 1#8, 2#8]).mem.read 253 = .ok 0x98#8 ∧
    (at_ 256 253 [0x98#8, 1#8, 2#8]).mem.read 254 = .ok 1#8 ∧ (at_ 256 253 [0x98#8, 1#8, 2#8]).mem.read 255 = .ok 2#8 ∧
    ¬ IsOpcode 0x98#8 := ⟨rfl, rfl, rfl, rfl, by decide⟩
theorem witness_ReadsPastTheEnd :
    (at_ 256 254 []).run = .running ∧ (at_ 256 254 []).mem.size ≤ 254 + 2 ∧ 254 ≤ (at_ 256 254 []).mem.size := by decide
/-- The four clauses of FirstFaultIsReported: `pc` at N, N-1, N-2 and N-3. -/
theorem witness_FirstFaultIsReported :
    ((at_ 256 256 []).run = .running ∧ (∃ t, step (at_ 256 256 []) = .next t) ∧ (at_ 256 256 []).mem.size ≤ 256) ∧
    ((at_ 256 255 []).run = .running ∧ (∃ t, step (at_ 256 255 []) = .next t) ∧ 255 + 1 = (at_ 256 255 []).mem.size) ∧
    ((at_ 256 254 []).run = .running ∧ (∃ t, step (at_ 256 254 []) = .next t) ∧ 254 + 2 = (at_ 256 254 []).mem.size) ∧
    ((at_ 256 253 [0xAA#8, 8#8, 9#8]).run = .running ∧ (∃ t, step (at_ 256 253 [0xAA#8, 8#8, 9#8]) = .next t) ∧
      (at_ 256 253 [0xAA#8, 8#8, 9#8]).mem.read 253 = .ok 0xAA#8 ∧ (at_ 256 253 [0xAA#8, 8#8, 9#8]).mem.read 254 = .ok 8#8 ∧
      (at_ 256 253 [0xAA#8, 8#8, 9#8]).mem.read 255 = .ok 9#8) :=
  ⟨⟨rfl, ⟨_, rfl⟩, by decide⟩, ⟨rfl, ⟨_, rfl⟩, by decide⟩, ⟨rfl, ⟨_, rfl⟩, by decide⟩, rfl, ⟨_, rfl⟩, rfl, rfl, rfl⟩
/-- One step to each of the two ends. -/
theorem witness_CleanHaltOnlyByHlt :
    ((at_ 3 0 [0x01#8]).run = .running ∧ (at_ 3 0 [0x01#8]).err = none ∧ ∃ t, step (at_ 3 0 [0x01#8]) = .next t ∧ t.run = .halted) ∧
    (State.reset.run = .running ∧ State.reset.err = none ∧
      ∃ t f, step State.reset = .next t ∧ t.err = some f ∧ t.run = .halted) :=
  ⟨⟨rfl, rfl, _, rfl, rfl⟩, rfl, rfl, _, _, rfl, rfl, rfl⟩

theorem witness_RunsOnlyExtendTheirHistory : Inv (at_ 3 0 [0x01#8]) ∧ ∃ t, Sys2Proof.core.run 2 (at_ 3 0 [0x01#8]) = .next t :=
  ⟨smallest_inv, _, rfl⟩
/-- The clauses about a recorded error and about HALTED: a faulted state, one more `tick`. -/
theorem witness_RunsOnlyExtendTheirHistory_faulted :
    Inv (raise (.unknownInstruction 0#8) State.reset) ∧
      (∃ t, Sys2Proof.core.run 1 (raise (.unknownInstruction 0#8) State.reset) = .next t) ∧
      (raise (.unknownInstruction 0#8) State.reset).err = some (.unknownInstruction 0#8) ∧
      (raise (.unknownInstruction 0#8) State.reset).run = .halted :=
  ⟨witness_StepKeepsTheInvariant_faulted, ⟨_, rfl⟩, rfl, rfl⟩
/-- A memory that differs from the state's in a cell the step does not fetch. -/
theorem witness_OnlyTheThreeFetchedCellsMatter :
    memAt 256 0 [0x43#8, 7#8, 8#8, 9#8] ≠ (at_ 256 0 [0x43#8, 7#8, 8#8]).mem ∧
    (memAt 256 0 [0x43#8, 7#8, 8#8, 9#8]).read 0 = (at_ 256 0 [0x43#8, 7#8, 8#8]).mem.read 0 ∧
    (memAt 256 0 [0x43#8, 7#8, 8#8, 9#8]).read (0 + 1) = (at_ 256 0 [0x43#8, 7#8, 8#8]).mem.read (0 + 1) ∧
    (memAt 256 0 [0x43#8, 7#8, 8#8, 9#8]).read (0 + 2) = (at_ 256 0 [0x43#8, 7#8, 8#8]).mem.read (0 + 2) ∧
    ∃ t, step (at_ 256 0 [0x43#8, 7#8, 8#8]) = .next t := ⟨by decide, rfl, rfl, rfl, _, rfl⟩
theorem witness_MemoryPort :
    ((at_ 256 256 []).run = .running ∧ 256 ≤ (at_ 256 256 []).mem.size) ∧
    ((at_ 256 253 []).run = .running ∧ 253 ≤ (at_ 256 253 []).mem.size) ∧ (halt State.reset).run = .halted := by decide
/-- A fetch that fails, at N-2, and one that succeeds, at N-3. -/
theorem witness_FetchReadsThePresentedAddresses :
    ((at_ 256 254 []).run = .running ∧ fetch (at_ 256 254 []) = .error (.outOfBounds 256)) ∧
    ((at_ 256 253 [0x01#8, 8#8, 9#8]).run = .running ∧
      fetch (at_ 256 253 [0x01#8, 8#8, 9#8]) = .ok ⟨0x01#8, 8#8, 9#8⟩) := ⟨⟨rfl, rfl⟩, rfl, rfl⟩
/-- The bound of EveryRunHaltsWithinTheBound at the launch of N = 256, of N = 3 and of N = 1. -/
theorem witness_EveryRunHaltsWithinTheBound :
    max 1 (State.reset.mem.size - 1 - State.reset.pc) ≤ 255 ∧ max 1 ((at_ 3 0 []).mem.size - 1 - (at_ 3 0 []).pc) ≤ 2 ∧
    max 1 ((at_ 1 0 []).mem.size - 1 - (at_ 1 0 []).pc) ≤ 1 := by decide
theorem witness_EndOfARunIsExplainedByItsMemory :
    (Inv (at_ 3 0 [0x01#8]) ∧ ∃ t, Sys2Proof.core.run 1 (at_ 3 0 [0x01#8]) = .next t ∧ t.run = .halted ∧ t.err = none) ∧
    (Inv (raise (.unknownInstruction 0#8) State.reset) ∧
      ∃ t f, Sys2Proof.core.run 0 (raise (.unknownInstruction 0#8) State.reset) = .next t ∧ t.run = .halted ∧ t.err = some f) :=
  ⟨⟨smallest_inv, _, rfl, rfl, rfl⟩, witness_StepKeepsTheInvariant_faulted, _, _, rfl, rfl, rfl⟩

end Sys2Proof.Tests
end

section
/-! The three kinds of outcome of a step (R17). -/

namespace Sys2Proof

theorem instrLength_pos (ir : Byte) : 0 < instrLength ir := Nat.succ_pos _

/-- The decoder answers an instruction only after its register checks (R85, R92). -/
theorem wellFormed_of_decode {ir a b : Byte} {i : Instr} (h : decode ir a b = .ok i) : WellFormed i := by
  rcases decode_cases ir a b with ⟨-, hd⟩ | ⟨-, ha, hd⟩ | ⟨-, ha, hd⟩ | ⟨-, ha, hb, hd⟩ |
    ⟨-, -, hd⟩ | ⟨-, -, -, hd⟩ | ⟨-, -, -, -, hd⟩ <;> cases hd.symm.trans h
  · rfl
  · exact legalRegister_iff.mpr ha
  · exact legalRegister_iff.mpr ha
  · exact (Bool.and_eq_true _ _).mpr ⟨legalRegister_iff.mpr ha, legalRegister_iff.mpr hb⟩

namespace Machine

/-- Fault entry ends the run with the error recorded (R155, R162). -/
theorem raise_faultedHalt (s : State) (f : Fault) : FaultedHalt (raise f s) := ⟨raise_run s f, by simp⟩

/-- A well-formed instruction completes: no fault is recorded and `pc` moves on by its length (R104). -/
theorem exec_completes {i : Instr} (s : State) (hi : WellFormed i) :
    ∃ t, exec i s = .next t ∧ t.err = s.err ∧ t.pc = s.pc + instrLength i.opcode := by
  rcases exec_cases (s := s) hi rfl with ⟨rfl, h⟩ | ⟨rd, imm, hd, rfl, h⟩ | ⟨rs, hs, rfl, h⟩ | ⟨rd, rs, hd, hs, rfl, h⟩
  all_goals exact ⟨_, h, rfl, rfl⟩

/-- Settles O18: a tick in HALTED changes nothing, a fault of the reads or of the decoder is raised, and what decodes is
well formed, so it completes. -/
theorem stepHasThreeKindsOfOutcome : Obligations.StepHasThreeKindsOfOutcome := by
  intro s
  rcases step_cases s with ⟨hr, h⟩ | ⟨hr, -, h⟩ | ⟨ir, a, b, hr, -, -, -, -, ⟨e, -, h⟩ | ⟨i, hi, h⟩⟩
  · exact ⟨s, h, .inl ⟨hr, rfl⟩⟩
  · exact ⟨_, h, .inr (.inr ⟨hr, raise_faultedHalt s _⟩)⟩
  · exact ⟨_, h, .inr (.inr ⟨hr, raise_faultedHalt s _⟩)⟩
  · obtain ⟨t, ht, herr, hpc⟩ := exec_completes s (wellFormed_of_decode hi)
    have hlt : s.pc < t.pc := hpc ▸ Nat.lt_add_of_pos_right (instrLength_pos _)
    exact ⟨t, h.trans ht, .inr (.inl ⟨hr, herr, hlt⟩)⟩

end Machine

end Sys2Proof
end

section
/-! The laws of a register write (R21, R22). -/

namespace Sys2Proof.Machine

/-- Mask-on-write (R22). -/
@[simp] theorem readReg_writeReg_same (r : RegIdx) (v : Nat) (s : State) :
    readReg r (writeReg r v s) = BitVec.ofNat 8 v := Vector.getElem_set_self r.isLt

/-- Writing one register changes no other (R21). -/
theorem readReg_writeReg_of_ne {q r : RegIdx} (h : q ≠ r) (v : Nat) (s : State) :
    readReg q (writeReg r v s) = readReg q s :=
  Vector.getElem_set_ne r.isLt q.isLt (Fin.val_ne_of_ne h.symm)

/-- Settles O7: the byte read back is the written value reduced modulo 256, and the register file is all that a write
replaces. -/
theorem registerWriteMasksAndTouchesOneRegister : Obligations.RegisterWriteMasksAndTouchesOneRegister := by
  intro s r v
  have readBack : (readReg r (writeReg r v s)).toNat = v % 256 := by
    rw [readReg_writeReg_same, BitVec.toNat_ofNat]
  exact ⟨(readReg r s).isLt, readBack, fun hv => readBack.trans (Nat.mod_eq_of_lt hv),
    fun _ hq => readReg_writeReg_of_ne hq v s, rfl⟩

end Sys2Proof.Machine
end

section
/-! The laws of a memory write (R52), and that no step performs one (R55). -/

namespace Sys2Proof.Machine

/-- Below the first address of a canonical list nothing is listed, so every cell there holds what R54 says. -/
theorem cellsRead_of_lt {n lo a : Nat} {c : List Host.Cell} (hc : cellsWf n lo c = true) (ha : a < lo) :
    cellsRead c a = Memory.unlisted := by
  induction c generalizing lo with
  | nil => rfl
  | cons head rest ih =>
    obtain ⟨b, w⟩ := head
    simp only [cellsWf, Bool.and_eq_true, decide_eq_true_eq] at hc
    obtain ⟨⟨⟨hlb, -⟩, -⟩, hrest⟩ := hc
    have hab : a ≠ b := by omega
    simpa [cellsRead, hab] using ih hrest (by omega)

/-- The canonical form is needed here: writing the unlisted value drops one entry, and the address must have no other. -/
theorem cellsRead_cellsWrite_same {n lo : Nat} {c : List Host.Cell} (hc : cellsWf n lo c = true) (a : Nat) (v : Byte) :
    cellsRead (cellsWrite c a v) a = v := by
  induction c generalizing lo with
  | nil => by_cases hv : v = Memory.unlisted <;> simp [cellsWrite, cellsRead, hv]
  | cons head rest ih =>
    obtain ⟨b, w⟩ := head
    simp only [cellsWf, Bool.and_eq_true, decide_eq_true_eq] at hc
    obtain ⟨-, hrest⟩ := hc
    rcases Nat.lt_trichotomy a b with hlt | rfl | hgt
    · have hunlisted := cellsRead_of_lt hrest (Nat.lt_succ_of_lt hlt)
      by_cases hv : v = Memory.unlisted <;> simp [cellsWrite, cellsRead, hlt, hlt.ne, hv, hunlisted]
    · have hunlisted := cellsRead_of_lt hrest (Nat.lt_succ_self a)
      by_cases hv : v = Memory.unlisted <;> simp [cellsWrite, cellsRead, hv, hunlisted]
    · simpa [cellsWrite, cellsRead, hgt.not_gt, hgt.ne'] using ih hrest

theorem cellsRead_cellsWrite_of_ne {a b : Nat} (hba : b ≠ a) (c : List Host.Cell) (v : Byte) :
    cellsRead (cellsWrite c a v) b = cellsRead c b := by
  induction c with
  | nil => by_cases hv : v = Memory.unlisted <;> simp [cellsWrite, cellsRead, hv, hba]
  | cons head rest ih =>
    obtain ⟨b', w⟩ := head
    rcases Nat.lt_trichotomy a b' with hlt | rfl | hgt
    · by_cases hv : v = Memory.unlisted <;> simp [cellsWrite, cellsRead, hlt, hv, hba]
    · by_cases hv : v = Memory.unlisted <;> simp [cellsWrite, cellsRead, hv, hba]
    · simp [cellsWrite, cellsRead, hgt.not_gt, hgt.ne', ih]

theorem write_of_lt {m : Memory} {a : Nat} (h : a < m.size) (v : Nat) :
    m.write a v = .ok ⟨m.size, cellsWrite m.cells a (BitVec.ofNat 8 v)⟩ := by
  simp [Memory.write, h]

theorem write_of_ge {m : Memory} {a : Nat} (h : m.size ≤ a) (v : Nat) : m.write a v = .error (.outOfBounds a) := by
  simp [Memory.write, Nat.not_lt.mpr h]

/-- A write that succeeds is read back, reduced to 8 bits. -/
theorem read_of_write_same {m m' : Memory} {a v : Nat} (hm : m.wf = true) (h : m.write a v = .ok m') :
    m'.read a = .ok (BitVec.ofNat 8 v) := by
  obtain ⟨ha, hsize, hcells⟩ := write_ok h
  obtain ⟨-, hwf⟩ := (Bool.and_eq_true _ _).mp hm
  rw [read_of_lt (hsize ▸ ha), hcells, cellsRead_cellsWrite_same hwf]

/-- Reads at every other address, those outside the memory included, answer as before the write. -/
theorem read_of_write_of_ne {m m' : Memory} {a b v : Nat} (h : m.write a v = .ok m') (hba : b ≠ a) :
    m'.read b = m.read b := by
  obtain ⟨-, hsize, hcells⟩ := write_ok h
  simp only [Memory.read, hsize, hcells, cellsRead_cellsWrite_of_ne hba]

/-- An instruction with an illegal register operand does nothing but raise the fault that names one (R153). -/
theorem exec_of_not_wellFormed {i : Instr} (s : State) (hi : ¬ WellFormed i) :
    ∃ v, exec i s = .next (raise (.invalidRegister v) s) := by
  cases i with
  | hlt => exact absurd rfl hi
  | ldi rd imm =>
    rcases regIndex_cases rd with ⟨hd, -⟩ | ⟨-, ed⟩
    · exact absurd (legalRegister_iff.mpr (Nat.le_of_lt_succ hd)) hi
    · exact ⟨rd, by simp [exec, execLdi, ed]⟩
  | prn rs =>
    rcases regIndex_cases rs with ⟨hs, -⟩ | ⟨-, es⟩
    · exact absurd (legalRegister_iff.mpr (Nat.le_of_lt_succ hs)) hi
    · exact ⟨rs, by simp [exec, execPrn, es]⟩
  | mul rd rs =>
    rcases regIndex_cases rd with ⟨hd, ed⟩ | ⟨-, ed⟩
    · rcases regIndex_cases rs with ⟨hs, -⟩ | ⟨-, es⟩
      · exact absurd ((Bool.and_eq_true _ _).mpr ⟨legalRegister_iff.mpr (Nat.le_of_lt_succ hd),
          legalRegister_iff.mpr (Nat.le_of_lt_succ hs)⟩) hi
      · exact ⟨rs, by simp [exec, execMul, ed, es]⟩
    · exact ⟨rd, by simp [exec, execMul, ed]⟩

/-- No instruction stores (R55). -/
theorem exec_mem {i : Instr} {s t : State} (h : exec i s = .next t) : t.mem = s.mem := by
  by_cases hi : WellFormed i
  · rcases exec_cases hi h with ⟨-, h⟩ | ⟨_, _, _, -, h⟩ | ⟨_, _, -, h⟩ | ⟨_, _, _, _, -, h⟩
    all_goals cases h; rfl
  · obtain ⟨v, hv⟩ := exec_of_not_wellFormed s hi
    cases hv.symm.trans h
    rfl

/-- No step writes memory (R55). -/
theorem step_mem {s t : State} (h : step s = .next t) : t.mem = s.mem := by
  rcases step_cases s with ⟨-, hs⟩ | ⟨-, -, hs⟩ | ⟨_, _, _, -, -, -, -, -, ⟨_, -, hs⟩ | ⟨i, -, hs⟩⟩
  · cases hs.symm.trans h; rfl
  · cases hs.symm.trans h; rfl
  · cases hs.symm.trans h; rfl
  · exact exec_mem (hs.symm.trans h)

/-- The memory of a run is the program text the loader left (R55). -/
theorem run_mem {k : Nat} {s t : State} (h : Sys2Proof.core.run k s = .next t) : t.mem = s.mem := by
  induction k generalizing s with
  | zero => cases (run_zero s).symm.trans h; rfl
  | succ k ih =>
    obtain ⟨u, hu, -⟩ := stepHasThreeKindsOfOutcome s
    exact (ih ((run_succ hu k).symm.trans h)).trans (step_mem hu)

/-- Settles O6: in a canonical list each address has at most one entry, so a write is read back at its address and nowhere
else; and no step writes. -/
theorem memoryWriteMasksAndTouchesOneCell : Obligations.MemoryWriteMasksAndTouchesOneCell := by
  refine ⟨fun m a v hm ha => ?_, fun m a v ha => write_of_ge ha v, fun s t => step_mem⟩
  have hw := write_of_lt ha v
  exact ⟨_, hw, rfl, ⟨_, read_of_write_same hm hw, BitVec.toNat_ofNat v 8⟩, fun b => read_of_write_of_ne hw⟩

end Sys2Proof.Machine
end

section
/-! The frame of the four instructions (R55). -/

namespace Sys2Proof.Machine

@[simp] theorem readReg_advance (r : RegIdx) (ir : Byte) (s : State) : readReg r (advance ir s) = readReg r s := rfl

/-- LDI and MUL end alike: one register written, then the advance; no other register changes. -/
theorem readReg_advance_writeReg_of_ne {r d : RegIdx} (h : r.val ≠ d.val) (ir : Byte) (v : Nat) (s : State) :
    readReg r (advance ir (writeReg d v s)) = readReg r s := by
  rw [readReg_advance, readReg_writeReg_of_ne (Fin.ne_of_val_ne h)]

/-- Settles O20: memory is no part of any instruction's effect, well formed or not; what else a well-formed instruction
leaves is read off its effect; and a run only repeats steps. -/
theorem effectsAreConfined : Obligations.EffectsAreConfined := by
  refine ⟨fun i s t h => ?_, fun i s t hi h => ?_, fun k s t => run_mem⟩
  · rw [exec_mem h]
    exact ⟨rfl, fun _ => rfl⟩
  · rcases exec_cases hi h with ⟨rfl, ht⟩ | ⟨rd, imm, hd, rfl, ht⟩ | ⟨rs, hs, rfl, ht⟩ | ⟨rd, rs, hd, hs, rfl, ht⟩
    · cases ht; exact ⟨rfl, rfl, rfl, rfl⟩
    · cases ht; exact ⟨rfl, fun r hr => readReg_advance_writeReg_of_ne hr _ _ s, rfl, rfl⟩
    · cases ht; exact ⟨rfl, rfl, rfl, _, rfl⟩
    · cases ht; exact ⟨rfl, fun r hr => readReg_advance_writeReg_of_ne hr _ _ s, rfl, rfl⟩

end Sys2Proof.Machine
end

section
/-! The length an opcode byte gives its instruction (R82). -/

namespace Sys2Proof

theorem operandCount_eq_div (b : Byte) : operandCount b = b.toNat / 64 := by
  rw [operandCount, BitVec.toNat_ushiftRight, Nat.shiftRight_eq_div_pow]

theorem instrLength_eq_div (b : Byte) : instrLength b = b.toNat / 64 + 1 := by
  rw [instrLength, operandCount_eq_div]

theorem instrLength_le_four (b : Byte) : instrLength b ≤ 4 := by
  have := b.isLt
  rw [instrLength_eq_div]
  omega

theorem instrLength_eq_four_iff (b : Byte) : instrLength b = 4 ↔ 0xC0 ≤ b.toNat := by
  have := b.isLt
  rw [instrLength_eq_div]
  omega

/-- The opcode byte alone selects the instruction (R87). -/
theorem eq_opcode_of_decode {ir a b : Byte} {i : Instr} (h : decode ir a b = .ok i) : ir = i.opcode := by
  rcases decode_cases ir a b with ⟨hir, hd⟩ | ⟨hir, -, hd⟩ | ⟨hir, -, hd⟩ | ⟨hir, -, -, hd⟩ |
    ⟨-, -, hd⟩ | ⟨-, -, -, hd⟩ | ⟨-, -, -, -, hd⟩ <;> cases hd.symm.trans h <;> exact hir

theorem encode_length : ∀ i : Instr, (encode i).length = instrLength i.opcode
  | .hlt => Laws.EncodeLength.hlt
  | .ldi rd imm => Laws.EncodeLength.ldi rd imm
  | .prn rs => Laws.EncodeLength.prn rs
  | .mul rd rs => Laws.EncodeLength.mul rd rs

/-- Every instruction fits in the three bytes a step fetches (R102). -/
theorem encode_length_le_three (i : Instr) : (encode i).length ≤ 3 := by
  cases i <;> simp [encode]

/-- Settles O4: the length is read off the top two bits of the byte; a byte that decodes is the opcode of its instruction,
whose encoding is that long and never longer than three bytes. -/
theorem lengthIsOperandCountPlusOne : Obligations.LengthIsOperandCountPlusOne := by
  refine ⟨fun b => ⟨operandCount_eq_div b, instrLength_eq_div b, instrLength_pos b, instrLength_le_four b,
    instrLength_eq_four_iff b⟩, ⟨rfl, rfl, rfl, rfl⟩, fun ir a b i h => ?_⟩
  have hlen : instrLength ir = (encode i).length := by rw [eq_opcode_of_decode h, encode_length]
  have hle := encode_length_le_three i
  exact ⟨hlen, by omega⟩

end Sys2Proof
end

section
/-! A running step at the bytes of an instruction, and LDI's (R86, R125). -/

namespace Sys2Proof

theorem decode_ldi {rd : Byte} (hd : rd.toNat < 8) (imm : Byte) : decode opLDI rd imm = .ok (.ldi rd imm) := by
  simp [decode, opLDI, opHLT, Nat.le_of_lt_succ hd]

namespace Machine

/-- A running step whose three bytes decode is the decoded instruction's own effect (R103). -/
theorem step_of_decode {s : State} {ir a b : Byte} {i : Instr} (hr : s.run = .running) (h0 : s.mem.read s.pc = .ok ir)
    (h1 : s.mem.read (s.pc + 1) = .ok a) (h2 : s.mem.read (s.pc + 2) = .ok b) (hd : decode ir a b = .ok i) :
    step s = exec i s := by
  have hf : fetch s = .ok ⟨ir, a, b⟩ := by simp only [fetch, h0, h1, h2]
  simp only [step, hr, hf, hd]

theorem regIndex_of_lt {i : Byte} (h : i.toNat < 8) : regIndex i = .ok ⟨i.toNat, h⟩ := dif_pos h

/-- Mask-on-write changes no byte: a byte is already reduced modulo 256 (R22). -/
theorem writeReg_toNat (r : RegIdx) (v : Byte) (s : State) : writeReg r v.toNat s = { s with x := s.x.set r v } := by
  rw [writeReg, BitVec.ofNat_toNat, BitVec.setWidth_eq]

/-- LDI with a legal destination: the immediate as it is, `pc` past the three bytes, nothing else (R125). -/
theorem exec_ldi {rd : Byte} (hd : rd.toNat < 8) (imm : Byte) (s : State) :
    exec (.ldi rd imm) s = .next { s with x := s.x.set rd.toNat imm hd, pc := s.pc + 3 } := by
  simp only [exec, execLdi, regIndex_of_lt hd, writeReg_toNat, advance, instrLength_opLDI]

/-- Settles O24: the three bytes decode to the LDI, whose effect is the step. -/
theorem ldiStoresTheImmediateAsItIs : Obligations.LdiStoresTheImmediateAsItIs := by
  intro s rd imm hd hr h0 h1 h2
  exact (step_of_decode hr h0 h1 h2 (decode_ldi hd imm)).trans (exec_ldi hd imm s)

end Machine

end Sys2Proof
end

section
/-! Ticks in HALTED (R100). -/

namespace Sys2Proof.Machine

theorem step_of_halted {s : State} (hr : s.run = .halted) : step s = .next s := by
  simp only [step, hr]

theorem fetchAddresses_of_halted {s : State} (hr : s.run = .halted) : fetchAddresses s = [] := by
  simp only [fetchAddresses, hr]

/-- A state that one tick leaves as it is, every run leaves as it is. -/
theorem run_of_step_self {s : State} (h : step s = .next s) (k : Nat) : Sys2Proof.core.run k s = .next s := by
  induction k with
  | zero => exact run_zero s
  | succ k ih => exact (run_succ h k).trans ih

/-- Settles O17: the step tests the run state before anything else, and a run repeats that step. -/
theorem haltedTicksChangeNothing : Obligations.HaltedTicksChangeNothing := by
  intro s k hr
  have hstep := step_of_halted hr
  exact ⟨hstep, fetchAddresses_of_halted hr, run_of_step_self hstep k⟩

end Sys2Proof.Machine
end

section
/-! The step against pseudocode P-R105: each branch of the pseudocode is one case of the reads, of the decoder and of the
decoded instruction's own effect. -/

namespace Sys2Proof

theorem decode_hlt (a b : Byte) : decode opHLT a b = .ok .hlt := rfl

theorem decode_prn {rs : Byte} (hs : rs.toNat < 8) (b : Byte) : decode opPRN rs b = .ok (.prn rs) := by
  simp [decode, opPRN, opLDI, opHLT, Nat.le_of_lt_succ hs]

theorem decode_mul {rd rs : Byte} (hd : rd.toNat < 8) (hs : rs.toNat < 8) : decode opMUL rd rs = .ok (.mul rd rs) := by
  have hd' : ¬ rd.toNat > 7 := Nat.not_lt.mpr (Nat.le_of_lt_succ hd)
  have hs' : ¬ rs.toNat > 7 := Nat.not_lt.mpr (Nat.le_of_lt_succ hs)
  simp [decode, opMUL, opPRN, opLDI, opHLT, hd', hs']

/-- The three opcodes with a register operand reject an illegal operandA (R85). -/
theorem decode_of_illegal_operandA {ir a : Byte} (hir : ir = opLDI ∨ ir = opPRN ∨ ir = opMUL) (ha : ¬ a.toNat < 8)
    (b : Byte) : decode ir a b = .error (.invalidRegister a) := by
  have ha' : a.toNat > 7 := Nat.not_lt.mp ha
  rcases hir with rfl | rfl | rfl <;> simp [decode, opMUL, opPRN, opLDI, opHLT, ha']

/-- MUL looks at operandB only after operandA (R157). -/
theorem decode_mul_of_illegal_operandB {a b : Byte} (ha : a.toNat < 8) (hb : ¬ b.toNat < 8) :
    decode opMUL a b = .error (.invalidRegister b) := by
  have hb' : b.toNat > 7 := Nat.not_lt.mp hb
  simp [decode, opMUL, opPRN, opLDI, opHLT, Nat.le_of_lt_succ ha, hb']

theorem decode_of_unknown {ir : Byte} (hhlt : ir ≠ opHLT) (hldi : ir ≠ opLDI) (hprn : ir ≠ opPRN) (hmul : ir ≠ opMUL)
    (a b : Byte) : decode ir a b = .error (.unknownInstruction ir) := by
  simp only [decode, hhlt, hldi, hprn, hmul, if_false]

namespace Machine

/-- A running step whose reads fail raises that fault (R155). -/
theorem step_of_fetch_error {s : State} {f : Fault} (hr : s.run = .running) (hf : fetch s = .error f) :
    step s = .next (raise f s) := by
  simp only [step, hr, hf]

/-- A running step whose three bytes are no instruction raises the decoder's fault (R103). -/
theorem step_of_decode_error {s : State} {ir a b : Byte} {e : DecodeError} (hr : s.run = .running)
    (h0 : s.mem.read s.pc = .ok ir) (h1 : s.mem.read (s.pc + 1) = .ok a) (h2 : s.mem.read (s.pc + 2) = .ok b)
    (hd : decode ir a b = .error e) : step s = .next (raise (decodeFault e) s) := by
  have hf : fetch s = .ok ⟨ir, a, b⟩ := by simp only [fetch, h0, h1, h2]
  simp only [step, hr, hf, hd]

/-- HLT: the core halts, `pc` one further, nothing else (R120). -/
theorem exec_hlt (s : State) : exec .hlt s = .next { s with run := .halted, pc := s.pc + 1 } := rfl

/-- PRN of a legal register: its value appended to the output, `pc` past the two bytes, nothing else (R130). -/
theorem exec_prn {rs : Byte} (hs : rs.toNat < 8) (s : State) :
    exec (.prn rs) s = .next { s with out := s.out ++ [s.x[rs.toNat]'hs], pc := s.pc + 2 } := by
  simp only [exec, execPrn, regIndex_of_lt hs]
  rfl

/-- MUL of two legal registers: the ALU's result written back, `pc` past the three bytes, nothing else (R137). -/
theorem exec_mul {rd rs : Byte} (hd : rd.toNat < 8) (hs : rs.toNat < 8) (s : State) :
    exec (.mul rd rs) s =
      .next { s with x := s.x.set rd.toNat (alu .mul (s.x[rd.toNat]'hd) (s.x[rs.toNat]'hs)) hd, pc := s.pc + 3 } := by
  simp only [exec, execMul, regIndex_of_lt hd, regIndex_of_lt hs, writeReg_toNat]
  rfl

/-- Settles O16: the branches of the pseudocode in its own order, each closed by the read that fails, the decoder's rejection
or the instruction's effect. -/
theorem stepIsTheTickPseudocode : Obligations.StepIsTheTickPseudocode := by
  intro s
  cases hr : s.run with
  | halted => exact step_of_halted hr
  | running =>
    cases h0 : s.mem.read s.pc with
    | error f => exact step_of_fetch_error hr (by simp only [fetch, h0])
    | ok ir =>
      cases h1 : s.mem.read (s.pc + 1) with
      | error f => exact step_of_fetch_error hr (by simp only [fetch, h0, h1])
      | ok a =>
        cases h2 : s.mem.read (s.pc + 2) with
        | error f => exact step_of_fetch_error hr (by simp only [fetch, h0, h1, h2])
        | ok b =>
          have executes {i : Instr} (hd : decode ir a b = .ok i) : step s = exec i s := step_of_decode hr h0 h1 h2 hd
          have rejects {e : DecodeError} (hd : decode ir a b = .error e) : step s = .next (raise (decodeFault e) s) :=
            step_of_decode_error hr h0 h1 h2 hd
          dsimp only
          -- The instructions' effects keep `s.run`, which the case split above replaced by its value.
          rw [← hr]
          split_ifs with hhlt hldi ha hprn ha hmul ha hb
          · subst hhlt; exact (executes (decode_hlt a b)).trans (exec_hlt s)
          · subst hldi; exact (executes (decode_ldi ha b)).trans (exec_ldi ha b s)
          · exact rejects (decode_of_illegal_operandA (.inl hldi) ha b)
          · subst hprn; exact (executes (decode_prn ha b)).trans (exec_prn ha s)
          · exact rejects (decode_of_illegal_operandA (.inr (.inl hprn)) ha b)
          · subst hmul; exact (executes (decode_mul ha hb)).trans (exec_mul ha hb s)
          · subst hmul; exact rejects (decode_mul_of_illegal_operandB ha hb)
          · exact rejects (decode_of_illegal_operandA (.inr (.inr hmul)) ha b)
          · exact rejects (decode_of_unknown hhlt hldi hprn hmul a b)

end Machine

end Sys2Proof
end

section
/-! The output channel: an executed PRN appends its register's value, and nothing else writes it (R131). -/

namespace Sys2Proof

/-- Only the opcode byte of PRN, followed by a legal register index, decodes to a PRN (R85, R87). -/
theorem eq_prn_bytes_of_decode {ir a b rs : Byte} (h : decode ir a b = .ok (.prn rs)) :
    ir = opPRN ∧ a = rs ∧ rs.toNat < 8 := by
  rcases decode_cases ir a b with ⟨-, hd⟩ | ⟨-, -, hd⟩ | ⟨hir, ha, hd⟩ | ⟨-, -, -, hd⟩ |
    ⟨-, -, hd⟩ | ⟨-, -, -, hd⟩ | ⟨-, -, -, -, hd⟩ <;> cases hd.symm.trans h
  exact ⟨hir, rfl, Nat.lt_succ_of_le ha⟩

namespace Machine

/-- No instruction but PRN writes the output, one that faults on an illegal register included. -/
theorem exec_prn_or_out_eq {i : Instr} {s t : State} (h : exec i s = .next t) : (∃ rs, i = .prn rs) ∨ t.out = s.out := by
  by_cases hi : WellFormed i
  · rcases exec_cases hi h with ⟨-, ht⟩ | ⟨_, _, _, -, ht⟩ | ⟨rs, _, hprn, -⟩ | ⟨_, _, _, _, -, ht⟩
    · cases ht; exact .inr rfl
    · cases ht; exact .inr rfl
    · exact .inl ⟨rs, hprn⟩
    · cases ht; exact .inr rfl
  · obtain ⟨v, hv⟩ := exec_of_not_wellFormed s hi
    cases hv.symm.trans h
    exact .inr rfl

/-- A running step at the bytes of a PRN of a legal register is that PRN's effect (R130). -/
theorem step_prn {s : State} {rs b : Byte} (hs : rs.toNat < 8) (hr : s.run = .running) (h0 : s.mem.read s.pc = .ok opPRN)
    (h1 : s.mem.read (s.pc + 1) = .ok rs) (h2 : s.mem.read (s.pc + 2) = .ok b) :
    step s = .next { s with out := s.out ++ [s.x[rs.toNat]'hs], pc := s.pc + 2 } :=
  (step_of_decode hr h0 h1 h2 (decode_prn hs b)).trans (exec_prn hs s)

/-- A step that writes the output is a running one at the bytes of a PRN of a legal register. -/
theorem step_at_prn_or_out_eq {s t : State} (h : step s = .next t) :
    (s.run = .running ∧ s.mem.read s.pc = .ok opPRN ∧ (∃ rs, s.mem.read (s.pc + 1) = .ok rs ∧ rs.toNat < 8) ∧
      ∃ b, s.mem.read (s.pc + 2) = .ok b) ∨ t.out = s.out := by
  rcases step_cases s with ⟨-, hs⟩ | ⟨-, -, hs⟩ | ⟨ir, a, b, hr, -, h0, h1, h2, ⟨_, -, hs⟩ | ⟨i, hd, hs⟩⟩
  · cases hs.symm.trans h; exact .inr rfl
  · cases hs.symm.trans h; exact .inr rfl
  · cases hs.symm.trans h; exact .inr rfl
  · rcases exec_prn_or_out_eq (hs.symm.trans h) with ⟨rs, rfl⟩ | hout
    · obtain ⟨rfl, rfl, hlt⟩ := eq_prn_bytes_of_decode hd
      exact .inl ⟨hr, h0, ⟨a, h1, hlt⟩, b, h2⟩
    · exact .inr hout

/-- Settles O26: `Emit` replaces the output alone; a step at a PRN is the PRN's effect, which keeps `err` and `run`; and a
step that is not at a PRN leaves the output. -/
theorem onlyPrnWritesTheOutput : Obligations.OnlyPrnWritesTheOutput := by
  refine ⟨fun s v => ⟨emit_out s v, rfl⟩, fun s rs b hs hr h0 h1 h2 => ?_, fun s t hno h => ?_⟩
  · exact ⟨_, step_prn hs hr h0 h1 h2, rfl, rfl, hr⟩
  · exact (step_at_prn_or_out_eq h).resolve_left hno

end Machine

end Sys2Proof
end

section
/-! The ALU's multiplication is the multiplication of bytes (R136). -/

namespace Sys2Proof.Machine

theorem alu_mul_toNat (a b : Byte) : (alu .mul a b).toNat = (a.toNat * b.toNat) % 256 := by
  simp only [alu, BitVec.toNat_ofNat, Nat.reducePow, Nat.mod_mod]

theorem alu_mul_eq_mul (a b : Byte) : alu .mul a b = a * b :=
  BitVec.eq_of_toNat_eq ((alu_mul_toNat a b).trans (BitVec.toNat_mul a b).symm)

/-- Modulo 256 it makes no difference whether the operands are read as signed or unsigned (R136). -/
theorem alu_mul_eq_ofInt_signed_product (a b : Byte) : alu .mul a b = BitVec.ofInt 8 (a.toInt * b.toInt) := by
  rw [alu_mul_eq_mul, BitVec.ofInt_mul, BitVec.ofInt_toInt, BitVec.ofInt_toInt]

/-- Settles O28: the law of natural numbers makes the ALU's result the product of bytes, whose ring laws are the rest. -/
theorem aluMultipliesModulo256 : Obligations.AluMultipliesModulo256 := by
  intro a b
  refine ⟨alu_mul_toNat a b, alu_mul_eq_ofInt_signed_product a b, ?_⟩
  simp only [alu_mul_eq_mul]
  exact ⟨BitVec.mul_comm a b, BitVec.mul_zero, BitVec.zero_mul, BitVec.mul_one a, BitVec.one_mul a⟩

end Sys2Proof.Machine
end

section
/-! Unknown opcode bytes (R151). -/

namespace Sys2Proof.Machine

/-- The decoder answers a byte outside table T-R87 with that byte itself, whatever follows it (R151). -/
theorem decode_of_not_isOpcode {ir : Byte} (h : ¬ IsOpcode ir) (a b : Byte) :
    decode ir a b = .error (.unknownInstruction ir) := by
  simp only [IsOpcode, not_or] at h
  obtain ⟨hhlt, hldi, hprn, hmul⟩ := h
  exact decode_of_unknown hhlt hldi hprn hmul a b

/-- Settles O31: the decoder's rejection is raised with the raw byte, and the halted core stays as it is. -/
theorem unknownOpcodeIsReportedAndHalts : Obligations.UnknownOpcodeIsReportedAndHalts := by
  intro s ir a b hr h0 h1 h2 hir
  have hstep : step s = .next (raise (.unknownInstruction ir) s) :=
    step_of_decode_error hr h0 h1 h2 (decode_of_not_isOpcode hir a b)
  have hstays : step (raise (.unknownInstruction ir) s) = .next (raise (.unknownInstruction ir) s) :=
    step_of_halted (raise_run s _)
  exact ⟨_, hstep, raise_err s _, raise_run s _, raise_x s _, raise_mem s _, run_of_step_self hstays⟩

end Sys2Proof.Machine
end

section
/-! The core's reset state (R180). -/

namespace Sys2Proof.Machine

/-- Every general register holds 0 after reset (R35). -/
@[simp] theorem readReg_reset (r : RegIdx) : readReg r State.reset = 0#8 := Vector.getElem_replicate r.isLt

/-- Settles O8: `run`, `pc` and `err` are written out in the reset state, and the registers are eight copies of 0. -/
theorem resetStateOfTheCore : Obligations.ResetStateOfTheCore := ⟨rfl, rfl, readReg_reset, rfl⟩

end Sys2Proof.Machine
end

section
/-! The decoder and the encoder agree (R83 to R92). -/

namespace Sys2Proof

theorem wellFormed_ldi_iff {rd imm : Byte} : WellFormed (.ldi rd imm) ↔ rd.toNat < 8 :=
  legalRegister_iff.trans Nat.lt_succ_iff.symm

theorem wellFormed_prn_iff {rs : Byte} : WellFormed (.prn rs) ↔ rs.toNat < 8 :=
  legalRegister_iff.trans Nat.lt_succ_iff.symm

theorem wellFormed_mul_iff {rd rs : Byte} : WellFormed (.mul rd rs) ↔ rd.toNat < 8 ∧ rs.toNat < 8 := by
  simp only [WellFormed, wellFormed, Bool.and_eq_true, legalRegister_iff, Nat.lt_succ_iff]

/-- Settles O2: the bytes of the encoding select the decoder's row, and well-formedness passes its register checks. -/
theorem decodeOfEncodeIsTheInstruction : Obligations.DecodeOfEncodeIsTheInstruction := by
  intro i ir a b hi h
  cases i with
  | hlt =>
    obtain ⟨rfl, -⟩ := List.cons_prefix_cons.mp h
    exact decode_hlt a b
  | ldi rd imm =>
    simp only [encode, List.cons_prefix_cons] at h
    obtain ⟨rfl, rfl, rfl, -⟩ := h
    exact decode_ldi (wellFormed_ldi_iff.mp hi) imm
  | prn rs =>
    simp only [encode, List.cons_prefix_cons] at h
    obtain ⟨rfl, rfl, -⟩ := h
    exact decode_prn (wellFormed_prn_iff.mp hi) b
  | mul rd rs =>
    simp only [encode, List.cons_prefix_cons] at h
    obtain ⟨rfl, rfl, rfl, -⟩ := h
    obtain ⟨hd, hs⟩ := wellFormed_mul_iff.mp hi
    exact decode_mul hd hs

/-- What the decoder answers is encoded by the bytes it was read from; those left over are unused (R90). -/
theorem encode_prefix_of_decode {ir a b : Byte} {i : Instr} (h : decode ir a b = .ok i) : encode i <+: [ir, a, b] := by
  rcases decode_cases ir a b with ⟨rfl, hd⟩ | ⟨rfl, -, hd⟩ | ⟨rfl, -, hd⟩ | ⟨rfl, -, -, hd⟩ |
    ⟨-, -, hd⟩ | ⟨-, -, -, hd⟩ | ⟨-, -, -, -, hd⟩ <;> cases hd.symm.trans h
  · exact ⟨[a, b], rfl⟩
  · exact ⟨[], rfl⟩
  · exact ⟨[b], rfl⟩
  · exact ⟨[], rfl⟩

/-- Settles O3, from the two halves: the register checks, and the bytes that were matched. -/
theorem decodedBytesBeginWithTheEncoding : Obligations.DecodedBytesBeginWithTheEncoding :=
  fun _ _ _ _ h => ⟨wellFormed_of_decode h, encode_prefix_of_decode h⟩

/-- Settles O1: each word falls under one of the decoder's rows or rejections. -/
theorem decodesTheWordsOfTheTable : Obligations.DecodesTheWordsOfTheTable :=
  ⟨decode_hlt _ _, decode_ldi (by decide) _, decode_prn (by decide) _, decode_mul (by decide) (by decide),
    decode_of_illegal_operandA (.inl rfl) (by decide) _, decode_of_illegal_operandA (.inr (.inr rfl)) (by decide) _,
    decode_mul_of_illegal_operandB (by decide) (by decide), Machine.decode_of_not_isOpcode (by decide) _ _⟩

end Sys2Proof
end

section
/-! What one step can do, read off its next state, and the invariant it keeps (R155, R191). -/

namespace Sys2Proof.Machine

/-- The next state of a step is the old one, the old one after fault entry, or an instruction's effect. -/
theorem step_next_cases {s t : State} (h : step s = .next t) :
    (s.run = .halted ∧ t = s) ∨
    (s.run = .running ∧ ∃ f, t = raise f s) ∨
    (∃ ir a b i, s.run = .running ∧ s.pc + 2 < s.mem.size ∧ s.mem.read s.pc = .ok ir ∧ decode ir a b = .ok i ∧
      exec i s = .next t) := by
  rcases step_cases s with ⟨hr, hs⟩ | ⟨hr, -, hs⟩ | ⟨ir, a, b, hr, hN, h0, -, -, ⟨e, -, hs⟩ | ⟨i, hd, hs⟩⟩
  · cases hs.symm.trans h; exact .inl ⟨hr, rfl⟩
  · cases hs.symm.trans h; exact .inr (.inl ⟨hr, _, rfl⟩)
  · cases hs.symm.trans h; exact .inr (.inl ⟨hr, _, rfl⟩)
  · exact .inr (.inr ⟨ir, a, b, i, hr, hN, h0, hd, hs.symm.trans h⟩)

/-- `exec_completes` for a next state at hand. -/
theorem err_and_pc_of_exec {i : Instr} {s t : State} (hi : WellFormed i) (h : exec i s = .next t) :
    t.err = s.err ∧ t.pc = s.pc + instrLength i.opcode := by
  obtain ⟨u, hu, herr, hpc⟩ := exec_completes s hi
  cases hu.symm.trans h
  exact ⟨herr, hpc⟩

/-- Of the four instructions only HLT touches the run state (R120). -/
theorem eq_hlt_or_run_eq_of_exec {i : Instr} {s t : State} (hi : WellFormed i) (h : exec i s = .next t) :
    i = .hlt ∨ t.run = s.run := by
  rcases exec_cases hi h with ⟨rfl, -⟩ | ⟨_, _, _, -, ht⟩ | ⟨_, _, -, ht⟩ | ⟨_, _, _, _, -, ht⟩
  · exact .inl rfl
  all_goals cases ht; exact .inr rfl

theorem instrLength_opcode_le_three (i : Instr) : instrLength i.opcode ≤ 3 :=
  encode_length i ▸ encode_length_le_three i

/-- A running core with no error recorded needs only a canonical memory and `pc` in range. -/
theorem inv_of_running {s : State} (hmem : s.mem.wf = true) (hpc : s.pc ≤ s.mem.size) (hr : s.run = .running)
    (herr : s.err = none) : Inv s where
  memWf := hmem
  pcInRange := hpc
  runningNoErr _ := herr
  cleanHaltPastHlt hc := nomatch hr.symm.trans hc.1
  faultHalts _ hf := nomatch herr.symm.trans hf

/-- Fault entry keeps `pc` and the memory, so the fault stays explained (R155). -/
theorem inv_raise {f : Fault} {s : State} (hs : Inv s) (hf : FaultExplained f s) : Inv (raise f s) where
  memWf := hs.memWf
  pcInRange := hs.pcInRange
  runningNoErr hr := nomatch hr
  cleanHaltPastHlt hc := nomatch hc.2
  faultHalts g hg := by cases hg; exact ⟨rfl, hf⟩

/-- The decoder's rejection is explained by the three bytes it looked at (R151, R153). -/
theorem faultExplained_of_decode_error {s : State} {ir a b : Byte} {e : DecodeError} (hN : s.pc + 2 < s.mem.size)
    (h0 : s.mem.read s.pc = .ok ir) (h1 : s.mem.read (s.pc + 1) = .ok a) (h2 : s.mem.read (s.pc + 2) = .ok b)
    (hd : decode ir a b = .error e) : FaultExplained (decodeFault e) s := by
  rcases decode_cases ir a b with ⟨-, h⟩ | ⟨-, -, h⟩ | ⟨-, -, h⟩ | ⟨-, -, -, h⟩ |
    ⟨hir, ha, h⟩ | ⟨rfl, ha, hb, h⟩ | ⟨hhlt, hldi, hprn, hmul, h⟩ <;> cases h.symm.trans hd
  · exact ⟨hN, ha, .inl ⟨ir, h0, hir, h1⟩⟩
  · exact ⟨hN, hb, .inr ⟨h0, ⟨a, h1, ha⟩, h2⟩⟩
  · have hnot : ¬ IsOpcode ir := not_or.mpr ⟨hhlt, not_or.mpr ⟨hldi, not_or.mpr ⟨hprn, hmul⟩⟩⟩
    exact ⟨hN, h0, hnot⟩

/-- A clean halt by HLT leaves `pc` just past the HLT byte (R104, R120). -/
theorem inv_of_exec_hlt {s t : State} (hs : Inv s) (herr : s.err = none) (hN : s.pc + 2 < s.mem.size)
    (h0 : s.mem.read s.pc = .ok opHLT) (h : exec .hlt s = .next t) : Inv t := by
  cases (exec_hlt s).symm.trans h
  exact
    { memWf := hs.memWf
      pcInRange := by dsimp only; omega
      runningNoErr := fun _ => herr
      cleanHaltPastHlt := fun _ => ⟨Nat.le_add_left 1 s.pc, hN, h0⟩
      faultHalts := fun _ hf => nomatch herr.symm.trans hf }

/-- Settles O14: a fault is raised where the memory explains it; HLT stops just past its byte; the other instructions go on
running, and none is long enough to carry `pc` beyond N. -/
theorem stepKeepsTheInvariant : Obligations.StepKeepsTheInvariant := by
  intro s t hs h
  rcases step_cases s with ⟨-, hst⟩ | ⟨-, hN, hst⟩ | ⟨ir, a, b, hr, hN, h0, h1, h2, ⟨e, hd, hst⟩ | ⟨i, hd, hst⟩⟩
  · cases hst.symm.trans h
    exact hs
  · cases hst.symm.trans h
    exact inv_raise hs ⟨max_eq_right hs.pcInRange, hN⟩
  · cases hst.symm.trans h
    exact inv_raise hs (faultExplained_of_decode_error hN h0 h1 h2 hd)
  · have hexec := hst.symm.trans h
    have hi := wellFormed_of_decode hd
    have hnone := hs.runningNoErr hr
    obtain ⟨herr, hpc⟩ := err_and_pc_of_exec hi hexec
    rcases eq_hlt_or_run_eq_of_exec hi hexec with rfl | hrun
    · cases eq_opcode_of_decode hd
      exact inv_of_exec_hlt hs hnone hN h0 hexec
    · have hmem := exec_mem hexec
      have hlen := instrLength_opcode_le_three i
      exact inv_of_running (hmem ▸ hs.memWf) (by rw [hmem]; omega) (hrun.trans hr) (herr.trans hnone)

end Sys2Proof.Machine
end

section
/-! Reading a canonical memory (R51, R54). -/

namespace Sys2Proof.Machine

/-- A canonical list mentions only addresses from its lower bound on and below `n`. -/
theorem bounds_of_mem_cells {n lo a : Nat} {v : Byte} {c : List Host.Cell} (hc : cellsWf n lo c = true)
    (hmem : (a, v) ∈ c) : lo ≤ a ∧ a < n := by
  induction c generalizing lo with
  | nil => cases hmem
  | cons head rest ih =>
    obtain ⟨b, w⟩ := head
    simp only [cellsWf, Bool.and_eq_true, decide_eq_true_eq] at hc
    obtain ⟨⟨⟨hlb, hbn⟩, -⟩, hrest⟩ := hc
    rcases List.mem_cons.mp hmem with heq | htail
    · cases heq; exact ⟨hlb, hbn⟩
    · have hbounds := ih hrest htail
      omega

/-- Each address has at most one entry in a canonical list, so the entry found is the one that is read. -/
theorem cellsRead_of_mem {n lo a : Nat} {v : Byte} {c : List Host.Cell} (hc : cellsWf n lo c = true)
    (hmem : (a, v) ∈ c) : cellsRead c a = v := by
  induction c generalizing lo with
  | nil => cases hmem
  | cons head rest ih =>
    obtain ⟨b, w⟩ := head
    simp only [cellsWf, Bool.and_eq_true, decide_eq_true_eq] at hc
    obtain ⟨-, hrest⟩ := hc
    rcases List.mem_cons.mp hmem with heq | htail
    · cases heq; exact if_pos rfl
    · have hab : a ≠ b := by have := bounds_of_mem_cells hrest htail; omega
      exact (if_neg hab).trans (ih hrest htail)

theorem cellsRead_of_not_mem {a : Nat} {c : List Host.Cell} (h : ∀ v : Byte, (a, v) ∉ c) :
    cellsRead c a = Memory.unlisted := by
  induction c with
  | nil => rfl
  | cons head rest ih =>
    obtain ⟨b, w⟩ := head
    have hab : a ≠ b := by rintro rfl; exact h w List.mem_cons_self
    exact (if_neg hab).trans (ih fun v hv => h v (List.mem_cons_of_mem _ hv))

/-- Settles O5: a listed cell lies inside the memory and is the only entry for its address. -/
theorem memoryReadGivesTheCellOrOutOfBounds : Obligations.MemoryReadGivesTheCellOrOutOfBounds := by
  intro m a hm
  obtain ⟨-, hcells⟩ := (Bool.and_eq_true _ _).mp hm
  refine ⟨fun v hv => ?_, fun ha hno => ?_, read_of_ge⟩
  · obtain ⟨-, ha⟩ := bounds_of_mem_cells hcells hv
    rw [read_of_lt ha, cellsRead_of_mem hcells hv]
  · rw [read_of_lt ha, cellsRead_of_not_mem hno, Memory.unlisted]

/-- A memory reads 0 everywhere when it is constructed (R54). -/
theorem read_ofCapacity {n a : Nat} (h : a < n) : (Memory.ofCapacity n).read a = .ok 0#8 := read_of_lt h

end Sys2Proof.Machine
end

section
/-! The loader's writes, and the launch of a run (R184). -/

namespace Sys2Proof.Machine

/-- The loader goes on from the memory its first write leaves. -/
theorem load_cons_of_write {m m₁ : Memory} {a : Nat} {v : Byte} (h : m.write a v.toNat = .ok m₁) (rest : List Byte) :
    m.load a (v :: rest) = m₁.load (a + 1) rest := by
  simp only [Memory.load, h]

/-- A load that succeeds has made its first write and the others after it. -/
theorem write_and_load_of_load_cons {m m' : Memory} {a : Nat} {v : Byte} {rest : List Byte}
    (h : m.load a (v :: rest) = .ok m') : ∃ m₁, m.write a v.toNat = .ok m₁ ∧ m₁.load (a + 1) rest = .ok m' := by
  cases hw : m.write a v.toNat with
  | error f => simp [Memory.load, hw] at h
  | ok m₁ => exact ⟨m₁, rfl, (load_cons_of_write hw rest).symm.trans h⟩

theorem size_of_load {m m' : Memory} {a : Nat} {bytes : List Byte} (h : m.load a bytes = .ok m') :
    m'.size = m.size := by
  induction bytes generalizing m a with
  | nil => cases h; rfl
  | cons v rest ih =>
    obtain ⟨m₁, hw, hl⟩ := write_and_load_of_load_cons h
    obtain ⟨-, hsize, -⟩ := write_ok hw
    exact (ih hl).trans hsize

/-- Loading succeeds exactly when the last byte still has a cell (log 10). -/
theorem load_succeeds_iff {m : Memory} {a : Nat} (ha : a ≤ m.size) (bytes : List Byte) :
    (∃ m', m.load a bytes = .ok m') ↔ a + bytes.length ≤ m.size := by
  induction bytes generalizing m a with
  | nil => exact ⟨fun _ => ha, fun _ => ⟨m, rfl⟩⟩
  | cons v rest ih =>
    rw [List.length_cons]
    constructor
    · rintro ⟨m', h⟩
      obtain ⟨m₁, hw, hl⟩ := write_and_load_of_load_cons h
      obtain ⟨hlt, hsize, -⟩ := write_ok hw
      have := (ih (by omega)).mp ⟨m', hl⟩
      omega
    · intro hle
      have hw := write_of_lt (m := m) (a := a) (by omega) v.toNat
      rw [load_cons_of_write hw]
      exact (ih (by dsimp only; omega)).mpr (by dsimp only; omega)

/-- Loading leaves every address before and after the bytes as it was. -/
theorem read_of_load_outside {m m' : Memory} {a b : Nat} {bytes : List Byte} (h : m.load a bytes = .ok m')
    (hb : b < a ∨ a + bytes.length ≤ b) : m'.read b = m.read b := by
  induction bytes generalizing m a with
  | nil => cases h; rfl
  | cons v rest ih =>
    rw [List.length_cons] at hb
    obtain ⟨m₁, hw, hl⟩ := write_and_load_of_load_cons h
    calc m'.read b = m₁.read b := ih hl (by omega)
      _ = m.read b := read_of_write_of_ne hw (by omega)

/-- Loading places byte `k` at the `k`th address from the start (R184). -/
theorem read_of_load_inside {m m' : Memory} {a : Nat} {bytes : List Byte} (hm : m.wf = true)
    (h : m.load a bytes = .ok m') (k : Nat) (hk : k < bytes.length) : m'.read (a + k) = .ok bytes[k] := by
  induction bytes generalizing m a k with
  | nil => cases hk
  | cons v rest ih =>
    obtain ⟨m₁, hw, hl⟩ := write_and_load_of_load_cons h
    cases k with
    | zero =>
      calc m'.read a = m₁.read a := read_of_load_outside hl (.inl (Nat.lt_succ_self a))
        _ = .ok v := by rw [read_of_write_same hm hw, BitVec.ofNat_toNat, BitVec.setWidth_eq]
    | succ k =>
      have hread := ih (write_wf hm hw) hl k (Nat.lt_of_succ_lt_succ hk)
      rw [Nat.add_assoc, Nat.add_comm 1 k] at hread
      exact hread

/-- A launch is the loader's work on an empty memory, and the reset state of the core (R183). -/
theorem launch_ok_iff {n : Nat} {program : List Byte} {s : State} :
    State.launch n program = .ok s ↔
      (Memory.ofCapacity n).load 0 program = .ok s.mem ∧ s = { State.reset with mem := s.mem } := by
  unfold State.launch
  cases (Memory.ofCapacity n).load 0 program with
  | error f => simp
  | ok m =>
    constructor
    · intro h; cases h; exact ⟨rfl, rfl⟩
    · rintro ⟨hm, hs⟩; cases hm; exact congrArg Except.ok hs.symm

theorem launch_succeeds_iff (n : Nat) (program : List Byte) :
    (∃ s, State.launch n program = .ok s) ↔ program.length ≤ n := by
  have hload := load_succeeds_iff (Nat.zero_le (Memory.ofCapacity n).size) program
  rw [Nat.zero_add] at hload
  refine Iff.trans ⟨fun ⟨s, hs⟩ => ?_, fun ⟨m, hm⟩ => ?_⟩ hload
  · exact ⟨s.mem, (launch_ok_iff.mp hs).1⟩
  · exact ⟨{ State.reset with mem := m }, launch_ok_iff.mpr ⟨hm, rfl⟩⟩

/-- Settles O11: the loader succeeds exactly when the program fits, places its bytes and leaves the other cells 0. -/
theorem launchPlacesTheProgram : Obligations.LaunchPlacesTheProgram := by
  intro n program
  refine ⟨(launch_succeeds_iff n program).symm, fun s hs => ?_⟩
  have hfits : program.length ≤ n := (launch_succeeds_iff n program).mp ⟨s, hs⟩
  obtain ⟨hload, hreset⟩ := launch_ok_iff.mp hs
  refine ⟨size_of_load hload, hreset, fun k hk => ?_, fun a ha hn => ?_⟩
  · have hwf := ofCapacity_wf (n := n) (by omega)
    have hread := read_of_load_inside hwf hload k hk
    rwa [Nat.zero_add] at hread
  · have hsame := read_of_load_outside hload (b := a) (.inr (by omega))
    exact hsame.trans (read_ofCapacity hn)

end Sys2Proof.Machine
end

section
/-! The reset input, and the invariant where a run starts (R180 to R183). -/

namespace Sys2Proof.Machine

/-- Settles O9: the memory at reset is the constructed one, of the default capacity. -/
theorem resetMemoryIsZeroAndOutputEmpty : Obligations.ResetMemoryIsZeroAndOutputEmpty :=
  ⟨rfl, rfl, fun _ => read_ofCapacity⟩

/-- The reset input restores everything but the memory (R181, R182). -/
theorem resetInput_eq (s : State) : resetInput s = { State.reset with mem := s.mem } := rfl

/-- Settles O10: all fields but the memory are those of the reset state. -/
theorem resetInputRestoresTheCore : Obligations.ResetInputRestoresTheCore := by
  intro s
  rw [resetInput_eq]
  exact ⟨rfl, rfl, readReg_reset, rfl, rfl, rfl⟩

theorem inv_reset_with_mem {m : Memory} (h : m.wf = true) : Inv { State.reset with mem := m } :=
  inv_of_running h (Nat.zero_le m.size) rfl rfl

/-- Settles O12: the memory at reset is canonical. -/
theorem invariantHoldsAtReset : Obligations.InvariantHoldsAtReset := inv_reset_with_mem reset_mem_wf

/-- Settles O13: the loader keeps the memory canonical, and the reset input does not touch it. -/
theorem invariantHoldsAtLaunch : Obligations.InvariantHoldsAtLaunch := by
  refine ⟨fun n program s hn hs => ?_, fun s => inv_reset_with_mem⟩
  obtain ⟨hload, hreset⟩ := launch_ok_iff.mp hs
  obtain ⟨hwf, -⟩ := load_wf program (ofCapacity_wf hn) hload
  exact hreset ▸ inv_reset_with_mem hwf

end Sys2Proof.Machine
end

section
/-! The four instructions complete on legal registers and trap on illegal ones (R85, R153). -/

namespace Sys2Proof.Machine

/-- Settles O21, by the effect of HLT. -/
theorem hltCompletes : Obligations.HltCompletes := exec_hlt

/-- Settles O23, by the effect of LDI. -/
theorem ldiCompletes : Obligations.LdiCompletes := fun s _ imm hd => exec_ldi hd imm s

/-- Settles O25, by the effect of PRN. -/
theorem prnCompletes : Obligations.PrnCompletes := fun s _ hs => exec_prn hs s

/-- Settles O27: the byte written is the ALU's, whose value is the product modulo 256. -/
theorem mulCompletes : Obligations.MulCompletes :=
  fun s _ _ hd hs => ⟨_, alu_mul_toNat _ _, exec_mul hd hs s⟩

theorem regIndex_of_gt {i : Byte} (h : 7 < i.toNat) : regIndex i = .error (.invalidRegister i) :=
  dif_neg (Nat.not_lt.mpr h)

theorem exec_ldi_of_illegal {rd : Byte} (h : 7 < rd.toNat) (imm : Byte) (s : State) :
    exec (.ldi rd imm) s = .next (raise (.invalidRegister rd) s) := by
  simp only [exec, execLdi, regIndex_of_gt h]

theorem exec_prn_of_illegal {rs : Byte} (h : 7 < rs.toNat) (s : State) :
    exec (.prn rs) s = .next (raise (.invalidRegister rs) s) := by
  simp only [exec, execPrn, regIndex_of_gt h]

theorem exec_mul_of_illegal_operandA {rd : Byte} (h : 7 < rd.toNat) (rs : Byte) (s : State) :
    exec (.mul rd rs) s = .next (raise (.invalidRegister rd) s) := by
  simp only [exec, execMul, regIndex_of_gt h]

/-- MUL checks operandB after operandA (R137). -/
theorem exec_mul_of_illegal_operandB {rd rs : Byte} (hd : rd.toNat < 8) (hs : 7 < rs.toNat) (s : State) :
    exec (.mul rd rs) s = .next (raise (.invalidRegister rs) s) := by
  simp only [exec, execMul, regIndex_of_lt hd, regIndex_of_gt hs]

/-- Settles O29, one rejected register operand for each clause. -/
theorem illegalRegisterOperandTraps : Obligations.IllegalRegisterOperandTraps :=
  fun s _ b =>
    ⟨fun ha => ⟨exec_ldi_of_illegal ha b s, exec_prn_of_illegal ha s, exec_mul_of_illegal_operandA ha b s⟩,
      fun ha hb => exec_mul_of_illegal_operandB (Nat.lt_succ_of_le ha) hb s⟩

end Sys2Proof.Machine
end

section
/-! Running steps: past the end of memory, at HLT and PRN, and the fault that is reported (R101 to R104, R157). -/

namespace Sys2Proof.Machine

/-- Settles O15: the two ways a decoded word continues the step. -/
theorem stepRunsTheDecodedInstruction : Obligations.StepRunsTheDecodedInstruction :=
  fun _ _ _ _ hr h0 h1 h2 =>
    ⟨fun _ => step_of_decode hr h0 h1 h2, fun _ => step_of_decode_error hr h0 h1 h2,
      fun _ => step_of_decode_error hr h0 h1 h2⟩

/-- The reads of a running step that reach N fail at the first address from N on (R102). -/
theorem step_past_end {s : State} {a : Nat} (hr : s.run = .running) (hN : s.mem.size ≤ s.pc + 2)
    (ha : max s.pc s.mem.size = a) : step s = .next (raise (.outOfBounds a) s) := by
  rcases fetch_cases s with ⟨hlt, -⟩ | ⟨-, hf⟩
  · omega
  · exact step_of_fetch_error hr (ha ▸ hf)

/-- Settles O32: the first address from N on is N itself when `pc` has not passed it. -/
theorem readsPastTheEndRaiseOutOfBounds : Obligations.ReadsPastTheEndRaiseOutOfBounds :=
  fun _ hr hN => ⟨step_past_end hr hN rfl, fun hpc => step_past_end hr hN (max_eq_right hpc)⟩

/-- HLT needs its two candidate bytes readable, whatever they are (R90, R102). -/
theorem step_hlt {s : State} (hr : s.run = .running) (hN : s.pc + 2 < s.mem.size) (h0 : s.mem.read s.pc = .ok opHLT) :
    step s = .next { s with run := .halted, pc := s.pc + 1 } :=
  (step_of_decode hr h0 (read_of_lt (by omega)) (read_of_lt hN) (decode_hlt _ _)).trans (exec_hlt s)

/-- Settles O22: the step at HLT, after which ticks change nothing, and the two places where its reads pass the end. -/
theorem hltHaltsCleanlyAndForGood : Obligations.HltHaltsCleanlyAndForGood := by
  refine ⟨rfl, fun s hr herr h0 => ⟨fun hN => ?_, fun hN => ?_, fun hN => ?_⟩⟩
  · exact ⟨_, step_hlt hr hN h0, rfl, ⟨rfl, herr⟩, run_of_step_self (step_of_halted rfl)⟩
  · exact step_past_end hr (by omega) (by omega)
  · exact step_past_end hr (by omega) (by omega)

/-- Settles O30: the steps at HLT and PRN take any unused byte, and a read past the end is a fault whatever was read. -/
theorem unusedOperandBytesAreIgnored : Obligations.UnusedOperandBytesAreIgnored := by
  intro s hr
  refine ⟨step_hlt hr, fun rs hs hN h0 h1 => ?_, fun hN => ?_⟩
  · exact step_prn hs hr h0 h1 (read_of_lt hN)
  · exact ⟨_, step_past_end hr hN rfl, raise_faultedHalt s _⟩

/-- A register check that was due and found no fault. -/
theorem lt_eight_of_check {due : Prop} {v : Byte} (hdue : due) (h : ¬ (due ∧ 7 < v.toNat)) : v.toNat < 8 :=
  Nat.lt_succ_of_le (Nat.not_lt.mp (not_and.mp h hdue))

/-- An opcode of the table decodes when the register checks due for it find no fault (R85, R87). -/
theorem decodes_of_checks {ir a b : Byte} (hop : IsOpcode ir) (ha : ¬ (ir ≠ opHLT ∧ 7 < a.toNat))
    (hb : ¬ (ir = opMUL ∧ 7 < b.toNat)) : ∃ i, decode ir a b = .ok i := by
  rcases hop with rfl | rfl | rfl | rfl
  · exact ⟨_, decode_hlt a b⟩
  · exact ⟨_, decode_ldi (lt_eight_of_check (by decide) ha) b⟩
  · exact ⟨_, decode_prn (lt_eight_of_check (by decide) ha) b⟩
  · exact ⟨_, decode_mul (lt_eight_of_check (by decide) ha) (lt_eight_of_check rfl hb)⟩

/-- A step that raises a fault records it. -/
theorem err_of_step_raise {s t : State} {f : Fault} (hraise : step s = .next (raise f s)) (h : step s = .next t) :
    t.err = some f := by
  cases hraise.symm.trans h
  rfl

/-- Settles O33: the three reads come first, each within reach of the end of memory; then the decoder's checks in order. -/
theorem firstFaultIsReported : Obligations.FirstFaultIsReported := by
  intro s t hr h
  refine ⟨fun hN => ?_, fun hN => ?_, fun hN => ?_, fun ir a b h0 h1 h2 => ?_⟩
  · exact err_of_step_raise (step_past_end hr (by omega) (by omega)) h
  · exact err_of_step_raise (step_past_end hr (by omega) (by omega)) h
  · exact err_of_step_raise (step_past_end hr (by omega) (by omega)) h
  · have rejects {e : DecodeError} (hd : decode ir a b = .error e) : t.err = some (decodeFault e) :=
      err_of_step_raise (step_of_decode_error hr h0 h1 h2 hd) h
    by_cases hop : IsOpcode ir
    · rw [if_neg (not_not.mpr hop)]
      split_ifs with ha hb
      · obtain ⟨hhlt, ha⟩ := ha
        exact rejects (decode_of_illegal_operandA (hop.resolve_left hhlt) (Nat.not_lt.mpr ha) b)
      · obtain ⟨rfl, hb⟩ := hb
        exact rejects (decode_mul_of_illegal_operandB (lt_eight_of_check (by decide) ha) (Nat.not_lt.mpr hb))
      · obtain ⟨i, hd⟩ := decodes_of_checks hop ha hb
        have hexec := (step_of_decode hr h0 h1 h2 hd).symm.trans h
        obtain ⟨herr, -⟩ := err_and_pc_of_exec (wellFormed_of_decode hd) hexec
        exact herr
    · rw [if_pos hop]
      exact rejects (decode_of_not_isOpcode hop a b)

end Sys2Proof.Machine
end

section
/-! What a step's next state tells of it: the fault, the advance, the kind of halt (R104, R155, R162). -/

namespace Sys2Proof.Machine

/-- A step that changes the error record has taken a fault and done nothing else (R155). -/
theorem eq_raise_of_err_ne {s t : State} (h : step s = .next t) (hne : t.err ≠ s.err) : ∃ f, t = raise f s := by
  rcases step_next_cases h with ⟨-, rfl⟩ | ⟨-, hf⟩ | ⟨ir, a, b, i, -, -, -, hd, hexec⟩
  · exact absurd rfl hne
  · exact hf
  · obtain ⟨herr, -⟩ := err_and_pc_of_exec (wellFormed_of_decode hd) hexec
    exact absurd herr hne

/-- Settles O19: the opcode byte of what decodes is the instruction's own, and fixes its length; fault entry keeps `pc`. -/
theorem pcAdvancesByTheLengthOrStays : Obligations.PcAdvancesByTheLengthOrStays := by
  intro s t h
  refine ⟨fun hr => ?_, fun hr ir a b h0 h1 h2 i hd => ?_, fun _ herr hne => ?_⟩
  · cases (step_of_halted hr).symm.trans h
    rfl
  · have hexec := (step_of_decode hr h0 h1 h2 hd).symm.trans h
    obtain ⟨-, hpc⟩ := err_and_pc_of_exec (wellFormed_of_decode hd) hexec
    obtain rfl := eq_opcode_of_decode hd
    refine ⟨hpc, ?_⟩
    rw [← encode_length] at hpc
    cases i <;> exact hpc
  · obtain ⟨f, rfl⟩ := eq_raise_of_err_ne h (herr ▸ hne)
    exact raise_pc s f

/-- Settles O34: a step that records an error is fault entry alone. -/
theorem faultingStepChangesOnlyErrAndRun : Obligations.FaultingStepChangesOnlyErrAndRun := by
  intro s t _ herr h hne
  obtain ⟨f, rfl⟩ := eq_raise_of_err_ne h (herr ▸ hne)
  rfl

/-- A step from RUNNING to HALTED that records no fault is HLT's (R162). -/
theorem at_hlt_of_cleanHalt {s t : State} (hr : s.run = .running) (h : step s = .next t) (hclean : CleanHalt t) :
    s.mem.read s.pc = .ok opHLT ∧ s.pc + 2 < s.mem.size := by
  obtain ⟨hhalted, hnone⟩ := hclean
  rcases step_next_cases h with ⟨hr', -⟩ | ⟨-, f, rfl⟩ | ⟨ir, a, b, i, -, hN, h0, hd, hexec⟩
  · exact nomatch hr.symm.trans hr'
  · exact nomatch hnone
  · rcases eq_hlt_or_run_eq_of_exec (wellFormed_of_decode hd) hexec with rfl | hrun
    · obtain rfl : ir = opHLT := eq_opcode_of_decode hd
      exact ⟨h0, hN⟩
    · exact nomatch (hr.symm.trans hrun.symm).trans hhalted

/-- Settles O35: HLT alone halts without fault entry, and fault entry always records its fault. -/
theorem cleanHaltOnlyByHlt : Obligations.CleanHaltOnlyByHlt := by
  intro s t hr herr h
  refine ⟨⟨at_hlt_of_cleanHalt hr h, fun ⟨h0, hN⟩ => ?_⟩, fun f hf => ?_, fun hhalted => ?_⟩
  · cases (step_hlt hr hN h0).symm.trans h
    exact ⟨rfl, herr⟩
  · obtain ⟨g, rfl⟩ := eq_raise_of_err_ne h (by simp [hf, herr])
    exact raise_faultedHalt s g
  · by_cases hnone : t.err = none
    · exact .inl ⟨⟨hhalted, hnone⟩, fun hfaulted => hfaulted.2 hnone⟩
    · exact .inr ⟨⟨hhalted, hnone⟩, fun hclean => hnone hclean.2⟩

end Sys2Proof.Machine
end

section
/-! A step sees no memory but the three cells it fetches (R61). -/

namespace Sys2Proof.Machine

/-- A well-formed instruction does not look at the memory at all (R55). -/
theorem exec_with_mem {i : Instr} {s t : State} (hi : WellFormed i) (m : Memory) (h : exec i s = .next t) :
    exec i { s with mem := m } = .next { t with mem := m } := by
  cases i with
  | hlt =>
    cases (exec_hlt s).symm.trans h
    exact exec_hlt _
  | ldi rd imm =>
    have hd := wellFormed_ldi_iff.mp hi
    cases (exec_ldi hd imm s).symm.trans h
    exact exec_ldi hd imm _
  | prn rs =>
    have hs := wellFormed_prn_iff.mp hi
    cases (exec_prn hs s).symm.trans h
    exact exec_prn hs _
  | mul rd rs =>
    obtain ⟨hd, hs⟩ := wellFormed_mul_iff.mp hi
    cases (exec_mul hd hs s).symm.trans h
    exact exec_mul hd hs _

/-- Settles O37: the fetch is the same, so the fault or the decoded instruction is. -/
theorem onlyTheThreeFetchedCellsMatter : Obligations.OnlyTheThreeFetchedCellsMatter := by
  intro s t m h0 h1 h2 h
  have hfetch : fetch { s with mem := m } = fetch s := by simp only [fetch, h0, h1, h2]
  rcases step_cases s with ⟨hr, hs⟩ | ⟨hr, hN, hs⟩ | ⟨ir, a, b, hr, -, e0, e1, e2, ⟨e, hd, hs⟩ | ⟨i, hd, hs⟩⟩
  · cases hs.symm.trans h
    exact step_of_halted hr
  · cases hs.symm.trans h
    rcases fetch_cases s with ⟨hlt, -⟩ | ⟨-, hf⟩
    · omega
    · exact step_of_fetch_error hr (hfetch.trans hf)
  · cases hs.symm.trans h
    exact step_of_decode_error hr (h0.trans e0) (h1.trans e1) (h2.trans e2) hd
  · have hstep : step { s with mem := m } = exec i { s with mem := m } :=
      step_of_decode hr (h0.trans e0) (h1.trans e1) (h2.trans e2) hd
    exact hstep.trans (exec_with_mem (wellFormed_of_decode hd) m (hs.symm.trans h))

end Sys2Proof.Machine
end

section
/-! The addresses at the memory port (R67). -/

namespace Sys2Proof.Machine

theorem presented_cons_of_lt {m : Memory} {a : Nat} (h : a < m.size) (rest : List Nat) :
    presented m (a :: rest) = a :: presented m rest := by
  simp only [presented, read_of_lt h]

theorem presented_cons_of_ge {m : Memory} {a : Nat} (h : m.size ≤ a) (rest : List Nat) :
    presented m (a :: rest) = [a] := by
  simp only [presented, read_of_ge h]

/-- The port sees the addresses from `pc` on up to the first that is not below N, at most three (R67, R102). -/
theorem fetchAddresses_cases {s : State} (hr : s.run = .running) :
    (s.mem.size ≤ s.pc ∧ fetchAddresses s = [s.pc]) ∨
    (s.mem.size = s.pc + 1 ∧ fetchAddresses s = [s.pc, s.pc + 1]) ∨
    (s.pc + 2 ≤ s.mem.size ∧ fetchAddresses s = [s.pc, s.pc + 1, s.pc + 2]) := by
  simp only [fetchAddresses, hr]
  rcases Nat.lt_or_ge s.pc s.mem.size with h0 | h0
  · rw [presented_cons_of_lt h0]
    rcases Nat.lt_or_ge (s.pc + 1) s.mem.size with h1 | h1
    · have last : presented s.mem [s.pc + 2] = [s.pc + 2] := by
        rcases Nat.lt_or_ge (s.pc + 2) s.mem.size with h2 | h2
        · exact presented_cons_of_lt h2 []
        · exact presented_cons_of_ge h2 []
      exact .inr (.inr ⟨h1, by rw [presented_cons_of_lt h1, last]⟩)
    · exact .inr (.inl ⟨by omega, by rw [presented_cons_of_ge h1]⟩)
  · exact .inl ⟨h0, presented_cons_of_ge h0 _⟩

/-- Settles O38: the list in each case is one, two or three addresses long. -/
theorem memoryPortPresentsAtMostThreeAddresses : Obligations.MemoryPortPresentsAtMostThreeAddresses := by
  refine ⟨fun s hr hpc => ?_, fun s => fetchAddresses_of_halted⟩
  rcases fetchAddresses_cases hr with ⟨hN, h⟩ | ⟨hN, h⟩ | ⟨hN, h⟩
  · exact ⟨1, by omega, by omega, h, by omega, by omega⟩
  · exact ⟨2, by omega, by omega, h, by omega, by omega⟩
  · exact ⟨3, by omega, by omega, h, by omega, by omega⟩

/-- The last address presented is the first that is not below N, or the third. -/
theorem getLast?_fetchAddresses {s : State} (hr : s.run = .running) :
    (fetchAddresses s).getLast? = some (min (max s.pc s.mem.size) (s.pc + 2)) := by
  rcases fetchAddresses_cases hr with ⟨hN, h⟩ | ⟨hN, h⟩ | ⟨hN, h⟩
  all_goals
    simp only [h, List.getLast?_cons_cons, List.getLast?_singleton, Option.some.injEq]
    omega

/-- Settles O42: the fetch fails at the first address that is not below N, the last one presented; where there is none all three
are presented and read. -/
theorem fetchReadsThePresentedAddresses : Obligations.FetchReadsThePresentedAddresses := by
  intro s hr
  rw [getLast?_fetchAddresses hr]
  rcases fetch_cases s with ⟨hN, hf⟩ | ⟨hN, hf⟩
  · have hall : fetchAddresses s = [s.pc, s.pc + 1, s.pc + 2] := by
      rcases fetchAddresses_cases hr with ⟨_, h⟩ | ⟨_, h⟩ | ⟨-, h⟩
      · omega
      · omega
      · exact h
    refine ⟨fun a => ?_, fun f h => (nomatch hf.symm.trans h), fun w h => ⟨hall, ?_⟩⟩
    · simp only [hf, reduceCtorEq, Option.some.injEq, false_iff]
      omega
    · cases hf.symm.trans h
      simp only [hall, List.map, read_of_lt (show s.pc < s.mem.size by omega),
        read_of_lt (show s.pc + 1 < s.mem.size by omega), read_of_lt hN]
  · refine ⟨fun a => ?_, fun f h => ?_, fun w h => (nomatch hf.symm.trans h)⟩
    · simp only [hf, Except.error.injEq, Fault.outOfBounds.injEq, Option.some.injEq]
      omega
    · cases hf.symm.trans h
      exact ⟨_, rfl⟩

end Sys2Proof.Machine
end

section
/-! Runs: the invariant, the history, the end, the bound and the driver (R100, R109, R191, R192). -/

namespace Sys2Proof.Machine

/-- A run of `k + 1` ticks is one step and a run of `k` (R17: every step answers a next state). -/
theorem step_and_run_of_run_succ {k : Nat} {s t : State} (h : Sys2Proof.core.run (k + 1) s = .next t) :
    ∃ u, step s = .next u ∧ Sys2Proof.core.run k u = .next t := by
  obtain ⟨u, hu, -⟩ := stepHasThreeKindsOfOutcome s
  exact ⟨u, hu, (run_succ hu k).symm.trans h⟩

theorem inv_of_run {k : Nat} {s t : State} (hs : Inv s) (h : Sys2Proof.core.run k s = .next t) : Inv t := by
  induction k generalizing s with
  | zero => cases (run_zero s).symm.trans h; exact hs
  | succ k ih =>
    obtain ⟨u, hu, hrun⟩ := step_and_run_of_run_succ h
    exact ih (stepKeepsTheInvariant s u hs hu) hrun

/-- Settles O41: the invariant holds at the end of the run, and the memory is the one the run started from. -/
theorem endOfARunIsExplainedByItsMemory : Obligations.EndOfARunIsExplainedByItsMemory := by
  intro k s t hs h hr
  have ht := inv_of_run hs h
  rw [← run_mem h]
  refine ⟨fun hnone => ht.cleanHaltPastHlt ⟨hr, hnone⟩, fun f hf => ?_⟩
  obtain ⟨-, hexplained⟩ := ht.faultHalts f hf
  exact hexplained

/-- `t` continues the history of `s`, with at most `k` values printed between them (R27, R28, R32). -/
structure Extends (k : Nat) (s t : State) : Prop where
  out : ∃ l : List Byte, t.out = s.out ++ l ∧ l.length ≤ k
  pc : s.pc ≤ t.pc
  err : ∀ f, s.err = some f → t.err = some f
  halted : s.run = .halted → t.run = .halted

theorem Extends.refl (k : Nat) (s : State) : Extends k s s :=
  ⟨⟨[], (List.append_nil s.out).symm, Nat.zero_le k⟩, Nat.le_refl s.pc, fun _ => id, id⟩

theorem Extends.trans {k l : Nat} {s t u : State} (hst : Extends k s t) (htu : Extends l t u) : Extends (k + l) s u where
  out := by
    obtain ⟨l₁, h₁, hlen₁⟩ := hst.out
    obtain ⟨l₂, h₂, hlen₂⟩ := htu.out
    exact ⟨l₁ ++ l₂, by rw [h₂, h₁, List.append_assoc], by rw [List.length_append]; omega⟩
  pc := hst.pc.trans htu.pc
  err f hf := htu.err f (hst.err f hf)
  halted hr := htu.halted (hst.halted hr)

/-- An instruction prints at most one value (R130). -/
theorem out_of_exec {i : Instr} {s t : State} (hi : WellFormed i) (h : exec i s = .next t) :
    ∃ l : List Byte, t.out = s.out ++ l ∧ l.length ≤ 1 := by
  rcases exec_cases hi h with ⟨-, ht⟩ | ⟨_, _, _, -, ht⟩ | ⟨_, _, -, ht⟩ | ⟨_, _, _, _, -, ht⟩ <;> cases ht
  · exact ⟨[], by simp, by simp⟩
  · exact ⟨[], by simp, by simp⟩
  · exact ⟨_, rfl, Nat.le_refl 1⟩
  · exact ⟨[], by simp, by simp⟩

/-- Only a running core with no error recorded can take a fault or execute an instruction. -/
theorem extends_of_step {s t : State} (hs : Inv s) (h : step s = .next t) : Extends 1 s t := by
  have fresh (hr : s.run = .running) (hout : ∃ l : List Byte, t.out = s.out ++ l ∧ l.length ≤ 1) (hpc : s.pc ≤ t.pc) :
      Extends 1 s t :=
    ⟨hout, hpc, fun _ hf => (nomatch (hs.runningNoErr hr).symm.trans hf), fun hr' => (nomatch hr.symm.trans hr')⟩
  rcases step_next_cases h with ⟨-, rfl⟩ | ⟨hr, f, rfl⟩ | ⟨ir, a, b, i, hr, -, -, hd, hexec⟩
  · exact Extends.refl 1 t
  · exact fresh hr (Extends.refl 1 s).out (Nat.le_refl s.pc)
  · have hi := wellFormed_of_decode hd
    obtain ⟨-, hpc⟩ := err_and_pc_of_exec hi hexec
    exact fresh hr (out_of_exec hi hexec) (hpc ▸ Nat.le_add_right _ _)

theorem extends_of_run {k : Nat} {s t : State} (hs : Inv s) (h : Sys2Proof.core.run k s = .next t) : Extends k s t := by
  induction k generalizing s with
  | zero => cases (run_zero s).symm.trans h; exact Extends.refl 0 _
  | succ k ih =>
    obtain ⟨u, hu, hrun⟩ := step_and_run_of_run_succ h
    have hsteps := (extends_of_step hs hu).trans (ih (stepKeepsTheInvariant s u hs hu) hrun)
    exact Nat.add_comm 1 k ▸ hsteps

/-- Settles O36: the history is extended by each step, hence by the run. -/
theorem runsOnlyExtendTheirHistory : Obligations.RunsOnlyExtendTheirHistory := by
  intro k s t hs h
  obtain ⟨hout, hpc, herr, hhalted⟩ := extends_of_run hs h
  exact ⟨hout, hpc, herr, hhalted⟩

/-- Only HLT is one byte long; the others take `pc` two or three further (T-R87). -/
theorem two_le_instrLength_opcode {i : Instr} (hi : i ≠ .hlt) : 2 ≤ instrLength i.opcode := by
  rw [← encode_length]
  cases i with
  | hlt => exact absurd rfl hi
  | ldi rd imm => exact Nat.le_succ 2
  | prn rs => exact Nat.le_refl 2
  | mul rd rs => exact Nat.le_succ 2

/-- A running step halts, or its three bytes were inside the memory and `pc` moves on by two at least. -/
theorem halted_or_pc_advances {s t : State} (hr : s.run = .running) (h : step s = .next t) :
    t.run = .halted ∨ (s.pc + 2 < s.mem.size ∧ s.pc + 2 ≤ t.pc) := by
  rcases step_next_cases h with ⟨hr', -⟩ | ⟨-, f, rfl⟩ | ⟨ir, a, b, i, -, hN, -, hd, hexec⟩
  · exact nomatch hr.symm.trans hr'
  · exact .inl (raise_run s f)
  · by_cases hhlt : i = .hlt
    · subst hhlt
      cases (exec_hlt s).symm.trans hexec
      exact .inl rfl
    · obtain ⟨-, hpc⟩ := err_and_pc_of_exec (wellFormed_of_decode hd) hexec
      have hlen := two_le_instrLength_opcode hhlt
      exact .inr ⟨hN, by omega⟩

/-- Settles O39, by induction on the number of ticks: a step that does not halt starts at or before N-3 and takes two cells off
the distance to the end, so at least one tick is left and the bound for the next state is met. -/
theorem everyRunHaltsWithinTheBound : Obligations.EveryRunHaltsWithinTheBound := by
  intro s k hk
  induction k generalizing s with
  | zero => omega
  | succ k ih =>
    cases hr : s.run with
    | halted => exact ⟨s, run_of_step_self (step_of_halted hr) _, hr⟩
    | running =>
      obtain ⟨t, ht, -⟩ := stepHasThreeKindsOfOutcome s
      rw [run_succ ht k]
      rcases halted_or_pc_advances hr ht with hhalted | ⟨hN, hpc⟩
      · exact ⟨t, run_of_step_self (step_of_halted hhalted) k, hhalted⟩
      · have hbound : max 1 (t.mem.size - 1 - t.pc) ≤ k := by rw [step_mem ht]; omega
        exact ih t hbound

/-- Settles O40: in HALTED neither does anything, and while RUNNING both take the same step. -/
theorem driverIsRepeatedTicks : Obligations.DriverIsRepeatedTicks := by
  intro k
  induction k with
  | zero => exact fun _ => rfl
  | succ k ih =>
    intro s
    cases hr : s.run with
    | halted => exact (driver_halted hr _).trans (run_of_step_self (step_of_halted hr) _).symm
    | running =>
      obtain ⟨t, ht, -⟩ := stepHasThreeKindsOfOutcome s
      rw [driver_succ hr ht, run_succ ht, ih]

end Sys2Proof.Machine
end
